-- ==== Sys2Proof/Word.lean ====
section
/-! DEFINITION. The word types of the engine and the two plain containers built from them.

A byte is 8 bits, a stream word 32 bits (rule R13, rule R53). A datapath word is an unsigned integer of
`w` bits, `w` fixed by the word family (rule R9, rule R130). -/

namespace Sys2Proof

/-- A byte (rule R13). -/
abbrev Byte := BitVec 8

/-- A word of the command or response stream (rule R53, rule R10). -/
abbrev Word32 := BitVec 32

/-- The two word families (rule R9): 32-bit words (SHA-224, SHA-256), 64-bit words (the other four). -/
inductive Family where
  | w32
  | w64
  deriving DecidableEq, Repr

/-- `w`, the word width in bits (rule R9). -/
abbrev Family.w : Family → Nat
  | .w32 => 32
  | .w64 => 64

/-- A datapath word of a family (rule R130). -/
abbrev Word (f : Family) := BitVec f.w

/-- Eight like things in order: `H[0]` … `H[7]` (rule R22). -/
structure Eight (α : Type) where
  h0 : α
  h1 : α
  h2 : α
  h3 : α
  h4 : α
  h5 : α
  h6 : α
  h7 : α
  deriving DecidableEq, Repr

/-- The eight things `g 0` … `g 7`. -/
def Eight.ofFn {α : Type} (g : Nat → α) : Eight α :=
  ⟨g 0, g 1, g 2, g 3, g 4, g 5, g 6, g 7⟩

/-- Element by element. -/
def Eight.map {α β : Type} (g : α → β) (x : Eight α) : Eight β :=
  ⟨g x.h0, g x.h1, g x.h2, g x.h3, g x.h4, g x.h5, g x.h6, g x.h7⟩

/-- Element by element, with the element's index. -/
def Eight.mapIdx {α β : Type} (g : Nat → α → β) (x : Eight α) : Eight β :=
  ⟨g 0 x.h0, g 1 x.h1, g 2 x.h2, g 3 x.h3, g 4 x.h4, g 5 x.h5, g 6 x.h6, g 7 x.h7⟩

/-- The eight in order as a list. -/
def Eight.toList {α : Type} (x : Eight α) : List α :=
  [x.h0, x.h1, x.h2, x.h3, x.h4, x.h5, x.h6, x.h7]

end Sys2Proof
end

