-- ==== Sys2Proof/Config.lean ====
section
/-! DEFINITION. What the spec fixes once for every engine (rule R10), and the free values.

A value the spec calls unspecified is "any value of its width (a draw)" (rule R15). Each opaque constant
below is such a draw: it has no body, so no proof can see what it is. Its first argument is the number
of the draw, read from the state's draw counter, which advances at every draw; a second argument, where
there is one, is the place that the value fills. -/

namespace Sys2Proof.Config

/-- `MAXLEN`, the largest payload of one command in bytes (rule R10): what a 16-bit `len` can say. -/
def maxLen : Nat := 65535

/-- The physical size of the partial-block buffer in bytes (rule R24, rule R50). -/
def bufferBytes : Nat := 128

/-- Free value: half `k` of the chaining registers (`2*i` the upper, `2*i+1` the lower half of `H[i]`)
after hardware reset, FINALIZE, DIGEST or an error (rule R36). Log entry 2. -/
opaque freeHalf : Nat → Nat → BitVec 32

/-- Free value: the unused upper half of `H[i]` after a 32-bit word is written to it (rule R22,
93_implementation_defined.md I9). Log entry 4. -/
opaque freeUpper : Nat → Nat → BitVec 32

/-- Free value: `byte_counter` where rule R36 leaves it unspecified, in the width given first: `L` bits, by
the word family (rule R23). Log entry 2. -/
opaque freeCounter (width : Nat) : Nat → BitVec width

/-- Free value: `buf_len` where rule R36 leaves it unspecified. Log entry 2. -/
opaque freeBufLen : Nat → BitVec 7

/-- Free value: a byte of `buffer` that is unspecified (rule R24, rule R36). Log entry 3. -/
opaque freeByte : Nat → Nat → Byte

/-- Free value: datapath register `k` between commands (rule R33): `a` … `h` are 0 to 7, `T1` and `T2`
are 8 and 9, `W[t]` is `10 + t`. Log entry 5. -/
opaque freeDatapathWord : Nat → Nat → BitVec 64

/-- Free value: the round index `t` between commands (rule R33). Log entry 5. -/
opaque freeRoundIndex : Nat → BitVec 7

end Sys2Proof.Config
end

