-- ==== Sys2Proof/Syntax.lean ====
section
/-! DEFINITION. The syntax of the six commands (rule R82), one constructor per row of the opcode table. -/

namespace Sys2Proof

/-- The six algorithms (rule R2), in the order of their ids 0 to 5 (rule R111). Ids 6 and 7 name no
variant, so no operand and no register of the model can hold them (rule R21). -/
inductive Variant where
  | sha224
  | sha256
  | sha384
  | sha512
  | sha512_224
  | sha512_256
  deriving DecidableEq, Repr

/-- A command with its operands: what a legal header and its payload stand for (rule R82, rule R84). -/
inductive Instr where
  /-- INIT v (rule R181). -/
  | init (v : Variant)
  /-- UPDATE P (rule R182). -/
  | update (payload : List Byte)
  /-- FINALIZE (rule R186). -/
  | finalize
  /-- RESET (rule R187). -/
  | reset
  /-- DIGEST v, P (rule R190). -/
  | digest (v : Variant) (payload : List Byte)
  /-- STATUS (rule R191). -/
  | status
  deriving DecidableEq, Repr

/-- The payload bytes a command carries; the commands without a payload carry none (rule R82). -/
def Instr.payload : Instr → List Byte
  | .init _ => []
  | .update p => p
  | .finalize => []
  | .reset => []
  | .digest _ p => p
  | .status => []

end Sys2Proof
end

