-- ==== Sys2Proof/WellFormed.lean ====
section
/-! DEFINITION. Which commands can be encoded: a payload has at most `MAXLEN` bytes (rule R10, rule R81).
A variant operand needs no check: `Variant` has exactly the six legal ids (rule R85). -/

namespace Sys2Proof

/-- A command is well-formed when its payload length fits the 16-bit `len` field (rule R81, rule R91). -/
def Instr.wellFormed : Instr → Bool
  | .init _ => true
  | .update p => decide (p.length ≤ Config.maxLen)
  | .finalize => true
  | .reset => true
  | .digest _ p => decide (p.length ≤ Config.maxLen)
  | .status => true

end Sys2Proof
end

