-- ==== Sys2Proof/Decode.lean ====
section
/-! DEFINITION. Frames, the decoder (total, refusing every illegal header) and the encoder
(30_encoding.md). A frame is one header word and `ceil(len / 4)` payload words (rule R80). -/

namespace Sys2Proof

/-! ## Header fields (rule R81, rule R84) -/

/-- Header bits 31:24. -/
def headerOpcode (header : Word32) : BitVec 8 := header.extractLsb' 24 8

/-- Header bits 23:19, reserved. -/
def headerRsv (header : Word32) : BitVec 5 := header.extractLsb' 19 5

/-- Header bits 18:16, the variant id. -/
def headerV (header : Word32) : BitVec 3 := header.extractLsb' 16 3

/-- Header bits 15:0, the payload length in bytes. -/
def headerLen (header : Word32) : BitVec 16 := header.extractLsb' 0 16

/-- `ceil(len / 4)`, taken from `len` for every header word, legal or illegal (rule R80). -/
def payloadWordCount (header : Word32) : Nat := ((headerLen header).toNat + 3) / 4

/-! ## Variant ids (rule R111) -/

/-- The 3-bit id of a variant. -/
def variantId : Variant → BitVec 3
  | .sha224 => 0
  | .sha256 => 1
  | .sha384 => 2
  | .sha512 => 3
  | .sha512_224 => 4
  | .sha512_256 => 5

/-- The variant that an id names; 6 and 7 name none (rule R111). -/
def variantOfId (v : BitVec 3) : Option Variant :=
  if v = 0 then some .sha224
  else if v = 1 then some .sha256
  else if v = 2 then some .sha384
  else if v = 3 then some .sha512
  else if v = 4 then some .sha512_224
  else if v = 5 then some .sha512_256
  else none

/-! ## Packing of bytes into stream words (rule R83, rule R89) -/

/-- The word that carries four bytes, the first in the most significant position. -/
def wordOfBytes (b0 b1 b2 b3 : Byte) : Word32 := b0 ++ b1 ++ b2 ++ b3

/-- The four bytes a word carries, the first from bits 31:24. -/
def bytesOfWord (x : Word32) : List Byte :=
  [x.extractLsb' 24 8, x.extractLsb' 16 8, x.extractLsb' 8 8, x.extractLsb' 0 8]

/-- Bytes packed four to a word; zeros in the unused positions of the last word (rule R90). -/
def packBytes : List Byte → List Word32
  | [] => []
  | [b0] => [wordOfBytes b0 0 0 0]
  | [b0, b1] => [wordOfBytes b0 b1 0 0]
  | [b0, b1, b2] => [wordOfBytes b0 b1 b2 0]
  | b0 :: b1 :: b2 :: b3 :: rest => wordOfBytes b0 b1 b2 b3 :: packBytes rest

/-- The first `len` bytes that the payload words carry; the positions beyond are ignored (rule R83). -/
def unpackBytes (len : Nat) (payload : List Word32) : List Byte :=
  (payload.flatMap bytesOfWord).take len

/-! ## Decoder (rule R85, rule R86) -/

/-- The command of a frame, or none exactly when the header is illegal (rule R85). -/
def decodeFrame (header : Word32) (payload : List Word32) : Option Instr :=
  let v := headerV header
  let len := headerLen header
  if headerRsv header ≠ 0 then none
  else if headerOpcode header = 0x01 then
    if len = 0 then (variantOfId v).map .init else none
  else if headerOpcode header = 0x02 then
    if v = 0 then some (.update (unpackBytes len.toNat payload)) else none
  else if headerOpcode header = 0x03 then
    if v = 0 ∧ len = 0 then some .finalize else none
  else if headerOpcode header = 0x04 then
    if v = 0 ∧ len = 0 then some .reset else none
  else if headerOpcode header = 0x05 then
    (variantOfId v).map (fun u => .digest u (unpackBytes len.toNat payload))
  else if headerOpcode header = 0x06 then
    if v = 0 ∧ len = 0 then some .status else none
  else none

/-- The first `n` words of a stream and the words after them; none when it holds fewer. -/
def splitWords (n : Nat) (ws : List Word32) : Option (List Word32 × List Word32) :=
  match n with
  | 0 => some ([], ws)
  | k + 1 =>
    match ws.drop k with
    | [] => none
    | _ :: rest => some (ws.take (k + 1), rest)

/-- The first whole frame of a command stream: header, payload words, the words after the frame
(rule R80); none when the stream is empty or the frame lacks payload words (rule R264). -/
def takeFrame : List Word32 → Option (Word32 × List Word32 × List Word32)
  | [] => none
  | header :: ws => (splitWords (payloadWordCount header) ws).map fun r => (header, r.1, r.2)

/-! ## Encoder (rule R81, rule R82, rule R83) -/

/-- A header word of format C with `rsv` zero. -/
def headerWord (opcode : BitVec 8) (v : BitVec 3) (len : BitVec 16) : Word32 :=
  opcode ++ (0 : BitVec 5) ++ v ++ len

/-- The frame of a command; meant for well-formed commands. -/
def encode : Instr → List Word32
  | .init v => [headerWord 0x01 (variantId v) 0]
  | .update p => headerWord 0x02 0 (BitVec.ofNat 16 p.length) :: packBytes p
  | .finalize => [headerWord 0x03 0 0]
  | .reset => [headerWord 0x04 0 0]
  | .digest v p => headerWord 0x05 (variantId v) (BitVec.ofNat 16 p.length) :: packBytes p
  | .status => [headerWord 0x06 0 0]

/-- What a stream begins with: its first whole frame decoded, and the words after that frame. The outer
option is none when there is no whole frame, the inner one none when the header is illegal. -/
def decodeStream (stream : List Word32) : Option (Option Instr × List Word32) :=
  (takeFrame stream).map fun fr => (decodeFrame fr.1 fr.2.1, fr.2.2)

/-! ## Table words -/

/-- `n` stream words read from the bits of `x`, the lowest 32 bits first. -/
def wordsOfNat : Nat → Nat → List Word32
  | 0, _ => []
  | n + 1, x => BitVec.ofNat 32 x :: wordsOfNat n (x >>> 32)

/-- The frame whose first `nbits` bits are `w` and whose other bits are zero: the header word is bits
31:0 of `w`, and the payload words that its `len` asks for follow. -/
def frameOfTableWord (nbits w : Nat) : List Word32 :=
  let x := w % 2 ^ nbits
  let header := BitVec.ofNat 32 x
  header :: wordsOfNat (payloadWordCount header) (x >>> 32)

/-- The command the decoder reads from a row's bits (the host's question about the opcode table). -/
def decodeTableWord (nbits w : Nat) : Option Instr :=
  match frameOfTableWord nbits w with
  | [] => none
  | header :: payload => decodeFrame header payload

end Sys2Proof
end

