-- ==== Sys2Proof/Machine/State.lean ====
section
/-! DEFINITION. The state of one engine (10_state.md), as plain data, and its value after hardware reset. -/

namespace Sys2Proof.Machine

/-- `PHASE`, 2 bits (rule R26). Its codes are `phaseBits`. -/
inductive Phase where
  | empty
  | active
  | finalized
  | error
  deriving DecidableEq, Repr

/-- The three errors (rule R231). Their codes are `causeBits`. -/
inductive Cause where
  /-- A legal command that is not allowed in the current phase (rule R232). -/
  | usage
  /-- The message length in bits would not fit the length field (rule R233). -/
  | overflow
  /-- The header word is not a legal encoding (rule R234). -/
  | illegal
  deriving DecidableEq, Repr

/-- One 64-bit chaining register, as its two halves: the 32-bit family uses the lower half alone, and the
upper half is then not architectural (rule R22). -/
structure HReg where
  hi : BitVec 32
  lo : BitVec 32
  deriving DecidableEq, Repr

/-- The transient registers of the compression datapath (rule R33). -/
structure Datapath where
  /-- `a` … `h`, in order. -/
  working : Eight (BitVec 64)
  /-- `W[0]` … `W[79]`. -/
  w : Vector (BitVec 64) 80
  t1 : BitVec 64
  t2 : BitVec 64
  /-- The round index. -/
  t : BitVec 7
  deriving DecidableEq, Repr

/-- The partial-block buffer: its written bytes as (index, byte) pairs, indexes strictly rising
(`Memory.wf`). A byte that is not listed is unspecified (rule R24): see `State.readByte`. -/
abbrev Memory := List Host.Cell

/-- The buffer's canonical form: indexes strictly rising, each one an index of the buffer (rule R50). -/
abbrev Memory.wf (m : Memory) : Prop :=
  m.Pairwise (fun c d => c.1 < d.1) ∧ ∀ c ∈ m, c.1 < Config.bufferBytes

/-- `byte_counter` while a variant is bound: an unsigned integer of `L` bits, 64 for the 32-bit-word family
and 128 for the 64-bit-word family, as wide as the length field (rule R23). -/
abbrev Counter (v : Variant) := BitVec (lengthFieldBits (familyOf v))

/-- The state: the context (rule R20), the transient registers (rule R33), the two streams (rule R53),
the reset input (rule R260), and the model's own draw counter. -/
structure State where
  /-- `VARIANT` (rule R21). -/
  variant : Variant
  /-- `H[0]` … `H[7]` (rule R22). -/
  h : Eight HReg
  /-- `byte_counter`: `L` bits, 64 or 128 by the word family of the variant (rule R23). -/
  byteCounter : Counter variant
  /-- `buffer[0]` … `buffer[127]` (rule R24). -/
  buffer : Memory
  /-- `buf_len` (rule R25). -/
  bufLen : BitVec 7
  /-- `PHASE` (rule R26). -/
  phase : Phase
  /-- `ERR` (rule R27): none is 0, no error recorded. -/
  err : Option Cause
  /-- `a` … `h`, `W`, `T1`, `T2`, `t` (rule R33). -/
  datapath : Datapath
  /-- The command stream: words sent and not yet consumed, oldest first (rule R53). -/
  commands : List Word32
  /-- The response stream: words produced and not yet taken by the host, oldest first (rule R88). -/
  responses : List Word32
  /-- The reset input (rule R260): the host sets it, and the step that resets clears it. -/
  resetInput : Bool
  /-- The model's own field, not the spec's: the number of the next free draw (log entry 1). -/
  draws : Nat
  deriving DecidableEq, Repr

/-- Reasons for which the machine stops with a fault: there is none. Every error of the spec is a next
state in phase ERROR (rule R236), and an engine without a whole frame waits (rule R264). Nothing raises
a fault, so none of them is unsafe. -/
inductive Fault where
  deriving DecidableEq, Repr

/-- Reasons for which a command has no meaning in the model. -/
inductive Refusal where
  /-- Raised only by an arm of `exec` whose command has no meaning yet; there is no such arm. Safe. -/
  | notModelled (mnemonic : String)
  deriving DecidableEq, Repr

/-- The state after hardware reset (rule R260): `PHASE` EMPTY, `VARIANT` 0, `ERR` 0, both streams empty.
DESIGN CHOICE (unsafe, log entry 6): the spec leaves every other register unspecified; each is zero here,
and the buffer lists no byte. -/
def State.reset : State where
  variant := .sha224
  h := Eight.ofFn fun _ => ⟨0, 0⟩
  byteCounter := 0
  buffer := []
  bufLen := 0
  phase := .empty
  err := none
  datapath := ⟨Eight.ofFn fun _ => 0, Vector.replicate 80 0, 0, 0, 0⟩
  commands := []
  responses := []
  resetInput := false
  draws := 0

end Sys2Proof.Machine
end

