-- ==== Sys2Proof/Machine/Flags.lean ====
section
/-! DEFINITION. The status flags and the status word (rule R31, rule R32, rule R88), and the two checks
that read them: is a command allowed in the phase (rule R195), would the byte count overflow (rule R184). -/

namespace Sys2Proof.Machine

/-- The 2-bit code of `PHASE` (rule R26). -/
def phaseBits : Phase → BitVec 2
  | .empty => 0
  | .active => 1
  | .finalized => 2
  | .error => 3

/-- The 4-bit code of a response or of `ERR`: 0 is OK, or no error recorded (rule R231). -/
def causeBits : Option Cause → BitVec 4
  | none => 0
  | some .usage => 1
  | some .overflow => 2
  | some .illegal => 3

/-- The status word, format S: `code`, `phase`, `variant`, `cause`, zeros, `rlen` (rule R88). -/
def statusWord (code : Option Cause) (phase : Phase) (v : Variant) (cause : Option Cause) (rlen : Nat) :
    Word32 :=
  causeBits code ++ phaseBits phase ++ variantId v ++ causeBits cause ++ (0 : BitVec 11) ++
    BitVec.ofNat 8 rlen

/-- UPDATE and FINALIZE are allowed in phase ACTIVE only (rule R182, rule R186). -/
def activeOnly : Phase → Bool
  | .empty => false
  | .active => true
  | .finalized => false
  | .error => false

/-- RESET is allowed in the phases ACTIVE and FINALIZED (rule R187). -/
def activeOrFinalized : Phase → Bool
  | .empty => false
  | .active => true
  | .finalized => true
  | .error => false

/-- UPDATE's overflow check on the true integer sum (rule R184). -/
def wouldOverflow (f : Family) (byteCounter : BitVec (lengthFieldBits f)) (len : Nat) : Bool :=
  decide (maxByteCount f < byteCounter.toNat + len)

end Sys2Proof.Machine
end

