-- ==== Sys2Proof/Machine/Operands.lean ====
section
/-! DEFINITION. The operand forms that read and write state: one byte of the buffer and a run of bytes
(rule R14, rule R50), and the chaining registers in the width of a family (rule R22). -/

namespace Sys2Proof.Machine

/-! ## The buffer -/

/-- The byte written at an index, or none. -/
def memoryRead : Memory → Nat → Option Byte
  | [], _ => none
  | (x, b) :: m, a => if x = a then some b else memoryRead m a

/-- One byte written; the form stays canonical. -/
def memoryWrite : Memory → Nat → Byte → Memory
  | [], a, b => [(a, b)]
  | (x, c) :: m, a, b =>
    if a < x then (a, b) :: (x, c) :: m
    else if a = x then (a, b) :: m
    else (x, c) :: memoryWrite m a b

/-- What `buffer[a]` reads as: the byte written there, or a free value (rule R24, log entry 3). -/
def readByte (s : State) (a : Nat) : Byte := (memoryRead s.buffer a).getD (Config.freeByte s.draws a)

/-- `MemRead(buf, i, n)` (rule R50). -/
def memRead (s : State) (i n : Nat) : List Byte := (List.range n).map fun k => readByte s (i + k)

/-- `MemWrite(buf, i, 1, [b])` (rule R50); every write of the engine is of one byte. -/
def memWrite (s : State) (i : Nat) (b : Byte) : State := { s with buffer := memoryWrite s.buffer i b }

/-! ## The chaining registers -/

/-- A chaining register read as a word of the family (rule R22). -/
def HReg.word : (f : Family) → HReg → Word f
  | .w32, r => r.lo
  | .w64, r => r.hi ++ r.lo

/-- A chaining register that holds a word of the family; in the 32-bit family its upper half is `upper`. -/
def HReg.ofWord : (f : Family) → (upper : BitVec 32) → Word f → HReg
  | .w32, upper, x => ⟨upper, x⟩
  | .w64, _, x => ⟨x.extractLsb' 32 32, x.extractLsb' 0 32⟩

/-- `H[0]` … `H[7]` read in the width of the family. -/
def readChain (f : Family) (s : State) : Eight (Word f) := s.h.map (HReg.word f)

/-- The transient registers between commands: free values (rule R33, log entry 5). -/
def freeDatapath (n : Nat) : Datapath where
  working := Eight.ofFn fun k => Config.freeDatapathWord n k
  w := Vector.ofFn fun t => Config.freeDatapathWord n (10 + t.val)
  t1 := Config.freeDatapathWord n 8
  t2 := Config.freeDatapathWord n 9
  t := Config.freeRoundIndex n

/-- `H[0..7] <- v`, at an initialisation (rule R181) or after a compression (rule R161). In the 32-bit
family the upper halves become free (rule R22), and so do the transient registers (rule R33). -/
def writeChain (f : Family) (v : Eight (Word f)) (s : State) : State :=
  { s with
    h := v.mapIdx fun i x => HReg.ofWord f (Config.freeUpper s.draws i) x
    datapath := freeDatapath s.draws
    draws := s.draws + 1 }

end Sys2Proof.Machine
end

