-- ==== Sys2Proof/Machine/Arith.lean ====
section
/-! DEFINITION. Word arithmetic and the six mixing functions (41_word_arithmetic.md), over words of any
width, and the big-endian byte order (rule R13, rule R55). None of them raises an error or sets a flag. -/

namespace Sys2Proof.Machine

/-! ## Big-endian bytes (rule R13) -/

/-- `be(n, v)`: the low `8*n` bits of `v` as `n` bytes, the most significant first. -/
def be : Nat → Nat → List Byte
  | 0, _ => []
  | n + 1, v => BitVec.ofNat 8 (v >>> (8 * n)) :: be n v

/-- `from_be(B)`: the unsigned integer whose big-endian bytes are `B`. -/
def fromBe (bytes : List Byte) : Nat := bytes.foldl (fun acc b => acc * 256 + b.toNat) 0

/-! ## The three operations (rules R131 to R134) -/

/-- `rotr_w(x, n)`; an amount of `w` or more is taken modulo `w` (rule R134). -/
def rotr {w : Nat} (x : BitVec w) (n : Nat) : BitVec w := x.rotateRight n

/-- `add_w(a, b)`: the sum modulo `2^w`, the carry discarded (rule R132). -/
def add {w : Nat} (a b : BitVec w) : BitVec w := a + b

/-- `shr_w(x, n)`, logical; 0 for an amount of `w` or more (rule R133, rule R134). -/
def shr {w : Nat} (x : BitVec w) (n : Nat) : BitVec w := x >>> n

/-! ## Choice and majority (rule R136, rule R137), over the bitwise operations of rule R135 -/

/-- `Ch_w(x, y, z)` (rule R136). -/
def ch {w : Nat} (x y z : BitVec w) : BitVec w := (x &&& y) ^^^ (~~~x &&& z)

/-- `Maj_w(x, y, z)` (rule R137). -/
def maj {w : Nat} (x y z : BitVec w) : BitVec w := (x &&& y) ^^^ (x &&& z) ^^^ (y &&& z)

/-! ## The four sigma functions (rule R138) with the amounts of rule R139 -/

/-- The xor of three rotations. -/
def bigSigma {w : Nat} (r1 r2 r3 : Nat) (x : BitVec w) : BitVec w := rotr x r1 ^^^ rotr x r2 ^^^ rotr x r3

/-- The xor of two rotations and one shift. -/
def smallSigma {w : Nat} (r1 r2 s : Nat) (x : BitVec w) : BitVec w := rotr x r1 ^^^ rotr x r2 ^^^ shr x s

/-- `BSIG0_w`. -/
def bsig0 : (f : Family) → Word f → Word f
  | .w32 => bigSigma 2 13 22
  | .w64 => bigSigma 28 34 39

/-- `BSIG1_w`. -/
def bsig1 : (f : Family) → Word f → Word f
  | .w32 => bigSigma 6 11 25
  | .w64 => bigSigma 14 18 41

/-- `SSIG0_w`. -/
def ssig0 : (f : Family) → Word f → Word f
  | .w32 => smallSigma 7 18 3
  | .w64 => smallSigma 1 8 7

/-- `SSIG1_w`. -/
def ssig1 : (f : Family) → Word f → Word f
  | .w32 => smallSigma 17 19 10
  | .w64 => smallSigma 19 61 6

end Sys2Proof.Machine
end

