-- ==== Sys2Proof/Machine/Compress.lean ====
section
/-! DEFINITION. The compression core: schedule expander, round datapath, feed-forward
(42_compression.md). A pure total function of the family, the chaining value and the block (rule R168). -/

namespace Sys2Proof.Machine

/-! ## Message schedule (rule R151, rule R152)

The schedule is built as a list with the NEWEST word first, so that `W[t-k]` is entry `k - 1`. -/

/-- The first `n` words of a block, each from `wordBytes f` bytes, the first byte most significant. -/
def loadWords (f : Family) : Nat → List Byte → List (Word f)
  | 0, _ => []
  | n + 1, block =>
    BitVec.ofNat f.w (fromBe (block.take (wordBytes f))) :: loadWords f n (block.drop (wordBytes f))

/-- `W[0]` … `W[15]` (rule R151). -/
def blockWords (f : Family) (block : List Byte) : List (Word f) := loadWords f 16 block

/-- `W[t-k]`, from the words before `W[t]`, newest first. -/
def wordBack {f : Family} (newestFirst : List (Word f)) (k : Nat) : Word f := newestFirst.getD (k - 1) 0

/-- `W[t]` from the words before it (rule R152). -/
def nextScheduleWord (f : Family) (before : List (Word f)) : Word f :=
  add (add (add (ssig1 f (wordBack before 2)) (wordBack before 7)) (ssig0 f (wordBack before 15)))
    (wordBack before 16)

/-- `n` more schedule words put before the ones there are, newest first. -/
def expandSchedule (f : Family) : Nat → List (Word f) → List (Word f)
  | 0, ws => ws
  | n + 1, ws => expandSchedule f n (nextScheduleWord f ws :: ws)

/-- `W[0]` … `W[round_count - 1]`, in ascending order (rule R152, rule R153). -/
def schedule (f : Family) (block : List Byte) : List (Word f) :=
  (expandSchedule f (roundCount f - 16) (blockWords f block).reverse).reverse

/-! ## Rounds (rules R155 to R157) -/

/-- The eight working variables (rule R155). -/
structure Working (α : Type) where
  a : α
  b : α
  c : α
  d : α
  e : α
  f : α
  g : α
  h : α
  deriving DecidableEq, Repr

/-- The working variables take the incoming chaining value (rule R155). -/
def loadWorking {f : Family} (hin : Eight (Word f)) : Working (Word f) :=
  ⟨hin.h0, hin.h1, hin.h2, hin.h3, hin.h4, hin.h5, hin.h6, hin.h7⟩

/-- `T1` of one round with constant `k` and schedule word `x` (rule R157). -/
def roundT1 {f : Family} (k x : Word f) (v : Working (Word f)) : Word f :=
  add (add (add (add v.h (bsig1 f v.e)) (ch v.e v.f v.g)) k) x

/-- `T2` of one round (rule R157). -/
def roundT2 {f : Family} (v : Working (Word f)) : Word f := add (bsig0 f v.a) (maj v.a v.b v.c)

/-- One round: every right side reads the values before the round (rule R157). -/
def roundStep {f : Family} (k x : Word f) (v : Working (Word f)) : Working (Word f) :=
  { a := add (roundT1 k x v) (roundT2 v), b := v.a, c := v.b, d := v.c,
    e := add v.d (roundT1 k x v), f := v.e, g := v.f, h := v.g }

/-- The rounds `t`, `t + 1`, … that consume the given schedule words (rule R156). -/
def rounds {f : Family} (t : Nat) : List (Word f) → Working (Word f) → Working (Word f)
  | [], v => v
  | x :: ws, v => rounds (t + 1) ws (roundStep (roundConstant f t) x v)

/-- The working variables added word by word to the incoming chaining value (rule R158). -/
def feedForward {f : Family} (hin : Eight (Word f)) (v : Working (Word f)) : Eight (Word f) :=
  ⟨add hin.h0 v.a, add hin.h1 v.b, add hin.h2 v.c, add hin.h3 v.d,
   add hin.h4 v.e, add hin.h5 v.f, add hin.h6 v.g, add hin.h7 v.h⟩

/-- `compress(w, Hin, B)` (rule R160). -/
def compress (f : Family) (hin : Eight (Word f)) (block : List Byte) : Eight (Word f) :=
  feedForward hin (rounds 0 (schedule f block) (loadWorking hin))

/-- `n` blocks compressed in order, taken from the front of the bytes (rule R161, rule R213). -/
def compressBlocks (f : Family) : Nat → Eight (Word f) → List Byte → Eight (Word f)
  | 0, hin, _ => hin
  | n + 1, hin, bytes =>
    compressBlocks f n (compress f hin (bytes.take (blockSize f))) (bytes.drop (blockSize f))

end Sys2Proof.Machine
end

