-- ==== Sys2Proof/Machine/Padding.lean ====
section
/-! DEFINITION. Padding, the final blocks and the digest (44_padding_finalization.md), over the values
that `finalize()` reads; the state stands in Machine/Ops.lean. -/

namespace Sys2Proof.Machine

/-- `z`, the number of zero bytes of step 2 after `n` buffered bytes: the mathematical modulo (rule R211). -/
def zeroCount (f : Family) (n : Nat) : Nat :=
  (((blockSize f : Int) - (lengthFieldBytes f : Int) - ((n : Int) + 1)) % (blockSize f : Int)).toNat

/-- What the three steps append after `n` buffered bytes of a message of `count` bytes (rule R211). -/
def padding (f : Family) (n count : Nat) : List Byte :=
  (0x80 : Byte) :: (List.replicate (zeroCount f n) (0 : Byte) ++ be (lengthFieldBytes f) (8 * count))

/-- The padded tail `T` of the buffered bytes (rule R211). -/
def paddedTail (f : Family) (buffered : List Byte) (count : Nat) : List Byte :=
  buffered ++ padding f buffered.length count

/-- The chaining value after the one or two final blocks (rule R212, rule R213). -/
def finalChain (f : Family) (hin : Eight (Word f)) (buffered : List Byte) (count : Nat) : Eight (Word f) :=
  let tail := paddedTail f buffered count
  compressBlocks f (tail.length / blockSize f) hin tail

/-- `S`: the eight words big-endian, `H[0]` first (rule R216). -/
def serialise (f : Family) (h : Eight (Word f)) : List Byte :=
  h.toList.flatMap fun x => be (wordBytes f) x.toNat

/-- `D`: the first `digest_length` bytes of `S` (rule R216). -/
def digestBytes (v : Variant) (h : Eight (Word (familyOf v))) : List Byte :=
  (serialise (familyOf v) h).take (digestLength v)

end Sys2Proof.Machine
end

