-- ==== Sys2Proof/Machine/Ops.lean ====
section
/-! DEFINITION. The shared operations of the commands: initialise the context, absorb bytes, finalise,
respond, take an error (error entry) and leave it, hardware reset, and the host's two streams. -/

namespace Sys2Proof.Machine

/-! ## Responses (rule R87, rule R88, rule R89) -/

/-- `respond(code, P)`: one response frame goes to the response stream, with `PHASE`, `VARIANT` and `ERR`
as they are after the command. -/
def respond (code : Option Cause) (payload : List Byte) (s : State) : State :=
  { s with
    responses := s.responses ++
      statusWord code s.phase s.variant s.err payload.length :: packBytes payload }

/-! ## Unspecified values (rule R36) -/

/-- `H`, `byte_counter`, `buffer`, `buf_len` and the transient registers become unspecified: a fresh draw
of each (log entry 2). The buffer lists no byte, so that every byte of it reads as a free value. -/
def unspecify (s : State) : State :=
  { s with
    h := Eight.ofFn fun i =>
      ⟨Config.freeHalf s.draws (2 * i), Config.freeHalf s.draws (2 * i + 1)⟩
    byteCounter := Config.freeCounter _ s.draws
    buffer := []
    bufLen := Config.freeBufLen s.draws
    datapath := freeDatapath s.draws
    draws := s.draws + 1 }

/-! ## Errors: entry and exit -/

/-- Error entry, `raise X` (rule R236): the first cause is kept, `PHASE` becomes ERROR, the computation's
registers become unspecified, and the response carries the code and no payload. -/
def raise (x : Cause) (s : State) : State :=
  respond (some x) []
    { unspecify s with
      err := if s.phase = .error then s.err else some x
      phase := .error }

/-- The part of INIT v that RESET and DIGEST share, and the only way out of phase ERROR beside hardware
reset (rule R181, rule R238): a fresh context for `v`. The buffer's bytes become unspecified. -/
def initContext (v : Variant) (s : State) : State :=
  { writeChain (familyOf v) (initialValue v) s with
    variant := v
    byteCounter := 0
    buffer := []
    bufLen := 0
    err := none }

/-! ## Absorbing bytes (rule R183) -/

/-- The buffer holds a whole block: compress it into `H`; the buffer is then empty, its bytes unspecified
(rule R161, rule R183, rule R24). -/
def compressBuffer (s : State) : State :=
  let f := familyOf s.variant
  { writeChain f (compress f (readChain f s) (memRead s 0 (blockSize f))) s with
    buffer := []
    bufLen := 0 }

/-- One byte taken in. -/
def absorbByte (s : State) (b : Byte) : State :=
  let s1 := memWrite { s with byteCounter := s.byteCounter + 1 } s.bufLen.toNat b
  if s.bufLen.toNat + 1 = blockSize (familyOf s.variant) then compressBuffer s1
  else { s1 with bufLen := s.bufLen + 1 }

/-- `absorb(P)`: one byte at a time, in order. -/
def absorb : List Byte → State → State
  | [], s => s
  | b :: p, s => absorb p (absorbByte s b)

/-! ## Finalisation (rule R218) -/

/-- The digest that `finalize()` returns from the context's registers. -/
def finalDigest (s : State) : List Byte :=
  digestBytes s.variant
    (finalChain (familyOf s.variant) (readChain (familyOf s.variant) s)
      (memRead s 0 s.bufLen.toNat) s.byteCounter.toNat)

/-- `finalize()` with what FINALIZE and DIGEST do after it: the context's registers become unspecified,
`PHASE` becomes FINALIZED, and the digest is the response's payload (rule R186, rule R190). -/
def finishWithDigest (s : State) : State :=
  respond none (finalDigest s) { unspecify s with phase := .finalized }

/-! ## Hardware reset (rule R260, rule R261) -/

/-- The reset input's effect: `PHASE` EMPTY, `VARIANT` 0, `ERR` 0, both streams emptied, every other
register unspecified (`byte_counter` in the width that `VARIANT` 0 gives it); no response. -/
def hardwareReset (s : State) : State :=
  { unspecify s with
    phase := .empty
    variant := .sha224
    byteCounter := Config.freeCounter _ s.draws
    err := none
    commands := []
    responses := []
    resetInput := false }

/-! ## The host's side of the streams (rule R6, rule R53) -/

/-- The host sends words: they go to the end of the command stream. -/
def hostSend (words : List Word32) (s : State) : State := { s with commands := s.commands ++ words }

/-- The host takes every response word there is. -/
def hostTake (s : State) : List Word32 × State := (s.responses, { s with responses := [] })

/-- The host asserts the reset input. -/
def hostReset (s : State) : State := { s with resetInput := true }

end Sys2Proof.Machine
end

