-- ==== Sys2Proof/Machine/Hashing.lean ====
section
/-! DEFINITION. The meanings of UPDATE, FINALIZE and DIGEST: the commands that take in message bytes or
return a digest (43_commands.md sections 3, 4, 6). -/

namespace Sys2Proof.Machine

/-- UPDATE P: append the payload to the message. USAGE outside phase ACTIVE, then OVERFLOW where the byte
count would overflow, both before a byte is absorbed (rule R180, rule R182, rule R184). -/
def execUpdate (payload : List Byte) (s : State) : Host.Outcome State Fault Refusal :=
  if activeOnly s.phase then
    if wouldOverflow (familyOf s.variant) s.byteCounter payload.length then .next (raise .overflow s)
    else .next (respond none [] (absorb payload s))
  else .next (raise .usage s)

/-- FINALIZE: the digest of the message, in phase ACTIVE; USAGE in the other phases (rule R186). -/
def execFinalize (s : State) : Host.Outcome State Fault Refusal :=
  if activeOnly s.phase then .next (finishWithDigest s) else .next (raise .usage s)

/-- DIGEST v, P: initialise, absorb, finalise in one command, in every phase (rule R190). -/
def execDigest (v : Variant) (payload : List Byte) (s : State) : Host.Outcome State Fault Refusal :=
  .next (finishWithDigest (absorb payload (initContext v s)))

end Sys2Proof.Machine
end

