-- ==== Sys2Proof/Machine/Lifecycle.lean ====
section
/-! DEFINITION. The meanings of INIT, RESET and STATUS: the commands that move the context through its
lifecycle and take in no message byte (43_commands.md sections 2, 5, 7). -/

namespace Sys2Proof.Machine

/-- INIT v: a new computation with variant `v`, in every phase (rule R181). -/
def execInit (v : Variant) (s : State) : Host.Outcome State Fault Refusal :=
  .next (respond none [] { initContext v s with phase := .active })

/-- RESET: a new computation with the variant already bound, in phase ACTIVE or FINALIZED; USAGE in the
other phases (rule R187). -/
def execReset (s : State) : Host.Outcome State Fault Refusal :=
  if activeOrFinalized s.phase then
    .next (respond none [] { initContext s.variant s with phase := .active })
  else .next (raise .usage s)

/-- STATUS: the status word, and nothing changes (rule R191). -/
def execStatus (s : State) : Host.Outcome State Fault Refusal := .next (respond none [] s)

end Sys2Proof.Machine
end

