-- ==== Sys2Proof/Machine/Dispatch.lean ====
section
/-! DEFINITION. One arm per command: steps 3 to 6 of rule R180, for a legal frame already consumed. -/

namespace Sys2Proof.Machine

def exec (i : Instr) (s : State) : Host.Outcome State Fault Refusal :=
  match i with
  | .init v => Sys2Proof.Machine.execInit v s
  | .update p => Sys2Proof.Machine.execUpdate p s
  | .finalize => Sys2Proof.Machine.execFinalize s
  | .reset => Sys2Proof.Machine.execReset s
  | .digest v p => Sys2Proof.Machine.execDigest v p s
  | .status => Sys2Proof.Machine.execStatus s

end Sys2Proof.Machine
end

