-- ==== Sys2Proof/Machine/Step.lean ====
section
/-! DEFINITION. One step: a hardware reset where the reset input is asserted (rule R260); else the first
whole frame of the command stream is consumed and its command executed completely (rule R7, rule R180);
else, with no whole frame there, the engine waits and nothing changes (rule R264). -/

namespace Sys2Proof.Machine

def step (s : State) : Host.Outcome State Fault Refusal :=
  if s.resetInput then .next (hardwareReset s)
  else
    match decodeStream s.commands with
    | none => .next s
    | some (none, rest) => .next (raise .illegal { s with commands := rest })
    | some (some i, rest) => exec i { s with commands := rest }

/-- The state with a table word's frame at the front of the command stream and the reset input not
asserted, so that the next step runs exactly that frame. -/
def State.withFetchWord (s : State) (nbits w : Nat) : State :=
  { s with commands := frameOfTableWord nbits w ++ s.commands, resetInput := false }

end Sys2Proof.Machine
end

