-- ==== Sys2Proof/Machine/Assembler.lean ====
section
/-! DEFINITION. The assembler (rule R90) and the long UPDATE (rule R91): from the text of a command stream to
its words. It is the host's side of the encoding; the engine's step does not use this file. -/

namespace Sys2Proof.Machine

/-- A byte-sequence literal (rule R90). -/
inductive ByteLiteral where
  /-- `"abc"`: the ASCII codes of the characters. -/
  | text (chars : List Char)
  /-- `x"616263"`. -/
  | hex (bytes : List Byte)
  /-- `rep(n, 0xNN)`: `n` copies of one byte. -/
  | rep (n : Nat) (b : Byte)
  /-- Literals joined by `++`. -/
  | join (l r : ByteLiteral)
  deriving DecidableEq, Repr

/-- The bytes a literal stands for. -/
def literalBytes : ByteLiteral → List Byte
  | .text cs => cs.map fun c => BitVec.ofNat 8 c.toNat
  | .hex bs => bs
  | .rep n b => List.replicate n b
  | .join l r => literalBytes l ++ literalBytes r

/-- One line (rule R90). A variant operand is any number 0 to 7: 6 and 7 assemble to illegal headers. -/
inductive AsmLine where
  | init (v : BitVec 3)
  | update (bytes : ByteLiteral)
  | finalize
  | reset
  | digest (v : BitVec 3) (bytes : ByteLiteral)
  | status
  /-- `.word 0x…`: one raw word. -/
  | word (x : Word32)
  deriving DecidableEq, Repr

/-- `n` consecutive slices of `MAXLEN` bytes, the last with what is left. -/
def slices : Nat → List Byte → List (List Byte)
  | 0, _ => []
  | n + 1, p => p.take Config.maxLen :: slices n (p.drop Config.maxLen)

/-- The UPDATE commands that a long UPDATE stands for: `ceil(n / 65535)` of them; one UPDATE where the
bytes fit one command (rule R91). -/
def expandUpdate (p : List Byte) : List Instr :=
  if p.length ≤ Config.maxLen then [.update p]
  else (slices ((p.length + (Config.maxLen - 1)) / Config.maxLen) p).map .update

/-- The words of a line; none for a DIGEST of more than 65535 bytes (rule R91). -/
def assembleLine : AsmLine → Option (List Word32)
  | .init v => some [headerWord 0x01 v 0]
  | .update l => some ((expandUpdate (literalBytes l)).flatMap encode)
  | .finalize => some (encode .finalize)
  | .reset => some (encode .reset)
  | .digest v l =>
    if (literalBytes l).length ≤ Config.maxLen then
      some (headerWord 0x05 v (BitVec.ofNat 16 (literalBytes l).length) :: packBytes (literalBytes l))
    else none
  | .status => some (encode .status)
  | .word x => some [x]

/-- The words of a program; none where the assembler rejects a line. -/
def assemble : List AsmLine → Option (List Word32)
  | [] => some []
  | l :: ls =>
    match assembleLine l, assemble ls with
    | some ws, some rest => some (ws ++ rest)
    | _, _ => none

/-! ## Text (rule R90; what the rule leaves open is log entry 16) -/

/-- The tokens of a line. -/
inductive Token where
  /-- A run of characters that are none of the others: a mnemonic, a name, a number. -/
  | word (chars : List Char)
  /-- The characters between two quotation marks. -/
  | quoted (chars : List Char)
  | comma
  | plus
  | left
  | right
  deriving DecidableEq, Repr

/-- The token of a punctuation character. -/
def punctuation (c : Char) : Option Token :=
  if c = ',' then some .comma
  else if c = '+' then some .plus
  else if c = '(' then some .left
  else if c = ')' then some .right
  else none

/-- The characters that separate tokens. -/
def isBlank (c : Char) : Bool := c = ' ' || c = '\t' || c = '\r'

/-- The word collected so far, newest character first, as a token. -/
def endWord : List Char → List Token
  | [] => []
  | cs => [.word cs.reverse]

/-- The tokens of one line, up to a comment; none where a quotation is not closed. The first argument is the
quotation being read, where there is one, the second the word being read, both newest character first. -/
def tokens : Option (List Char) → List Char → List Char → Option (List Token)
  | some _, _, [] => none
  | some q, w, c :: cs =>
    if c = '"' then (tokens none w cs).map (.quoted q.reverse :: ·) else tokens (some (c :: q)) w cs
  | none, w, [] => some (endWord w)
  | none, w, c :: cs =>
    if c = ';' then some (endWord w)
    else if c = '"' then (tokens (some []) [] cs).map (endWord w ++ ·)
    else if isBlank c then (tokens none [] cs).map (endWord w ++ ·)
    else
      match punctuation c with
      | some t => (tokens none [] cs).map (endWord w ++ t :: ·)
      | none => tokens none (c :: w) cs

/-- The value of a digit in a base of at most sixteen. -/
def digitValue (base : Nat) (c : Char) : Option Nat :=
  let v :=
    if '0' ≤ c ∧ c ≤ '9' then c.toNat - '0'.toNat
    else if 'a' ≤ c ∧ c ≤ 'f' then c.toNat - 'a'.toNat + 10
    else if 'A' ≤ c ∧ c ≤ 'F' then c.toNat - 'A'.toNat + 10
    else base
  if v < base then some v else none

/-- A number in a base, after the digits already read. -/
def digits (base : Nat) : Nat → List Char → Option Nat
  | acc, [] => some acc
  | acc, c :: cs => (digitValue base c).bind fun v => digits base (acc * base + v) cs

/-- A decimal number, or a hexadecimal one after `0x`. -/
def number : List Char → Option Nat
  | [] => none
  | '0' :: 'x' :: c :: cs => digits 16 0 (c :: cs)
  | c :: cs => digits 10 0 (c :: cs)

/-- A number below a bound. -/
def numberBelow (bound : Nat) (cs : List Char) : Option Nat :=
  (number cs).bind fun n => if n < bound then some n else none

/-- Bytes written as two hexadecimal digits each. -/
def hexBytes : List Char → Option (List Byte)
  | [] => some []
  | [_] => none
  | c :: d :: cs =>
    match digits 16 0 [c, d], hexBytes cs with
    | some b, some bs => some (BitVec.ofNat 8 b :: bs)
    | _, _ => none

/-- A variant: one of the six names, or a number 0 to 7. -/
def variantOperand (cs : List Char) : Option (BitVec 3) :=
  if cs = ['S', 'H', 'A', '2', '2', '4'] then some 0
  else if cs = ['S', 'H', 'A', '2', '5', '6'] then some 1
  else if cs = ['S', 'H', 'A', '3', '8', '4'] then some 2
  else if cs = ['S', 'H', 'A', '5', '1', '2'] then some 3
  else if cs = ['S', 'H', 'A', '5', '1', '2', '_', '2', '2', '4'] then some 4
  else if cs = ['S', 'H', 'A', '5', '1', '2', '_', '2', '5', '6'] then some 5
  else ((digits 10 0 cs).filter fun n => !cs.isEmpty && decide (n < 8)).map (BitVec.ofNat 3)

/-- Every character is an ASCII character. -/
def asciiText (cs : List Char) : Option ByteLiteral :=
  if cs.all fun c => decide (c.toNat < 128) then some (.text cs) else none

/-- What may follow a literal: nothing, or `++` and the rest of the sequence, already read. -/
def joinRest (l : ByteLiteral) : Option (Option ByteLiteral) → Option ByteLiteral
  | some none => some l
  | some (some r) => some (.join l r)
  | none => none

/-- A byte-sequence literal from its tokens. The flag says that a literal was read and that `++` or the end
comes next; the inner option is none at the end. -/
def byteTokens : Bool → List Token → Option (Option ByteLiteral)
  | true, [] => some none
  | true, .plus :: .plus :: ts =>
    match byteTokens false ts with
    | some (some r) => some (some r)
    | _ => none
  | false, .quoted cs :: ts =>
    ((asciiText cs).bind fun l => joinRest l (byteTokens true ts)).map some
  | false, .word ['x'] :: .quoted cs :: ts =>
    ((hexBytes cs).bind fun bs => joinRest (.hex bs) (byteTokens true ts)).map some
  | false, .word ['r', 'e', 'p'] :: .left :: .word n :: .comma :: .word b :: .right :: ts =>
    (match digits 10 0 n, numberBelow 256 b with
      | some k, some v => joinRest (.rep k (BitVec.ofNat 8 v)) (byteTokens true ts)
      | _, _ => none).map some
  | _, _ => none

/-- A whole byte-sequence operand. -/
def byteOperand (ts : List Token) : Option ByteLiteral := (byteTokens false ts).join

/-- One line from its tokens; an empty line is no line. The outer option is none where the assembler rejects
the line. -/
def lineOfTokens : List Token → Option (Option AsmLine)
  | [] => some none
  | [.word ['I', 'N', 'I', 'T'], .word v] => (variantOperand v).map fun x => some (.init x)
  | .word ['U', 'P', 'D', 'A', 'T', 'E'] :: ts => (byteOperand ts).map fun l => some (.update l)
  | [.word ['F', 'I', 'N', 'A', 'L', 'I', 'Z', 'E']] => some (some .finalize)
  | [.word ['R', 'E', 'S', 'E', 'T']] => some (some .reset)
  | .word ['D', 'I', 'G', 'E', 'S', 'T'] :: .word v :: .comma :: ts =>
    match variantOperand v, byteOperand ts with
    | some x, some l => some (some (.digest x l))
    | _, _ => none
  | [.word ['S', 'T', 'A', 'T', 'U', 'S']] => some (some .status)
  | [.word ['.', 'w', 'o', 'r', 'd'], .word x] =>
    (numberBelow (2 ^ 32) x).map fun n => some (.word (BitVec.ofNat 32 n))
  | _ => none

/-- The lines of a text: the line being read, newest character first, and the characters to come. -/
def splitLines : List Char → List Char → List (List Char)
  | l, [] => [l.reverse]
  | l, c :: cs => if c = '\n' then l.reverse :: splitLines [] cs else splitLines (c :: l) cs

/-- The program of a list of line texts. -/
def parseLines : List (List Char) → Option (List AsmLine)
  | [] => some []
  | l :: ls =>
    match (tokens none [] l).bind lineOfTokens, parseLines ls with
    | some (some x), some rest => some (x :: rest)
    | some none, some rest => some rest
    | _, _ => none

/-- The stream words of a program text; none where the assembler rejects it. -/
def assembleText (text : List Char) : Option (List Word32) :=
  (parseLines (splitLines [] text)).bind assemble

end Sys2Proof.Machine
end

