-- ==== Sys2Proof/Safety.lean ====
section
/-! DEFINITION. The terms in which claims about the engine are stated: the invariant between commands
(rule R27, rule R28), what it means that the context holds a message, the digest of a whole message, the
lifecycle table (rule R195), and when two states differ in unspecified values or in data alone. -/

namespace Sys2Proof.Machine

/-! ## The invariant -/

/-- What rule R28 says of the lengths and counters in phase ACTIVE, and that exactly the first `buf_len`
bytes of the buffer are written (rule R24). -/
abbrev Ready (s : State) : Prop :=
  s.bufLen.toNat < blockSize (familyOf s.variant) ∧
  s.bufLen.toNat = s.byteCounter.toNat % blockSize (familyOf s.variant) ∧
  s.byteCounter.toNat ≤ maxByteCount (familyOf s.variant) ∧
  s.buffer.map Prod.fst = List.range s.bufLen.toNat

/-- What holds between commands in every phase: the buffer's form is canonical, `ERR` is 0 exactly
outside phase ERROR (rule R27), and phase ACTIVE is `Ready` (rule R28). -/
abbrev EngineInv (s : State) : Prop :=
  Memory.wf s.buffer ∧ (s.err = none ↔ s.phase ≠ .error) ∧ (s.phase = .active → Ready s)

/-! ## Messages -/

/-- The buffer that holds exactly these bytes, from index 0 on. -/
def bufferCells (bytes : List Byte) : Memory := bytes.zipIdx.map fun p => (p.2, p.1)

/-- The context is in the middle of hashing `message` with variant `v` (rule R28): all of it accepted, its
whole blocks compressed into `H`, the rest in the buffer. -/
abbrev Holds (v : Variant) (message : List Byte) (s : State) : Prop :=
  s.phase = .active ∧ s.variant = v ∧ s.err = none ∧
  s.byteCounter.toNat = message.length ∧
  message.length ≤ maxByteCount (familyOf v) ∧
  s.bufLen.toNat = message.length % blockSize (familyOf v) ∧
  s.buffer = bufferCells
    (message.drop (message.length / blockSize (familyOf v) * blockSize (familyOf v))) ∧
  readChain (familyOf v) s =
    compressBlocks (familyOf v) (message.length / blockSize (familyOf v)) (initialValue v) message

/-- A message with its padding (rule R210, rule R211). -/
def paddedMessage (f : Family) (message : List Byte) : List Byte :=
  message ++ padding f (message.length % blockSize f) message.length

/-- The digest of a whole message: pad it, compress every block from the variant's initial value,
serialise and cut (rule R210 to rule R218 in one piece, with no buffer and no counter). -/
def messageDigest (v : Variant) (message : List Byte) : List Byte :=
  let padded := paddedMessage (familyOf v) message
  digestBytes v
    (compressBlocks (familyOf v) (padded.length / blockSize (familyOf v)) (initialValue v) padded)

/-! ## The lifecycle -/

/-- The transition table (rule R195): the phase after the command where it succeeds, none where it raises
USAGE. UPDATE in phase ACTIVE may raise OVERFLOW instead. -/
def transition : Phase → Instr → Option Phase
  | .empty, .init _ => some .active
  | .empty, .update _ => none
  | .empty, .finalize => none
  | .empty, .reset => none
  | .empty, .digest _ _ => some .finalized
  | .empty, .status => some .empty
  | .active, .init _ => some .active
  | .active, .update _ => some .active
  | .active, .finalize => some .finalized
  | .active, .reset => some .active
  | .active, .digest _ _ => some .finalized
  | .active, .status => some .active
  | .finalized, .init _ => some .active
  | .finalized, .update _ => none
  | .finalized, .finalize => none
  | .finalized, .reset => some .active
  | .finalized, .digest _ _ => some .finalized
  | .finalized, .status => some .finalized
  | .error, .init _ => some .active
  | .error, .update _ => none
  | .error, .finalize => none
  | .error, .reset => none
  | .error, .digest _ _ => some .finalized
  | .error, .status => some .error

/-- The command is an UPDATE whose payload would take the byte count over `2^(L-3) - 1`: `2^61 - 1` in the
32-bit family, `2^125 - 1` in the 64-bit family (rule R184). -/
abbrev CountOverflows (i : Instr) (s : State) : Prop :=
  match i with
  | .init _ => False
  | .update p =>
    match familyOf s.variant with
    | .w32 => 2 ^ 61 - 1 < s.byteCounter.toNat + p.length
    | .w64 => 2 ^ 125 - 1 < s.byteCounter.toNat + p.length
  | .finalize => False
  | .reset => False
  | .digest _ _ => False
  | .status => False

/-! ## Legal headers -/

/-- The legality test of a header word, field by field (rule R85). -/
abbrev LegalHeader (header : Word32) : Prop :=
  header.extractLsb' 19 5 = 0 ∧
  ((header.extractLsb' 24 8 = 0x01 ∧ (header.extractLsb' 16 3).toNat ≤ 5 ∧ header.extractLsb' 0 16 = 0) ∨
   (header.extractLsb' 24 8 = 0x02 ∧ header.extractLsb' 16 3 = 0) ∨
   (header.extractLsb' 24 8 = 0x03 ∧ header.extractLsb' 16 3 = 0 ∧ header.extractLsb' 0 16 = 0) ∨
   (header.extractLsb' 24 8 = 0x04 ∧ header.extractLsb' 16 3 = 0 ∧ header.extractLsb' 0 16 = 0) ∨
   (header.extractLsb' 24 8 = 0x05 ∧ (header.extractLsb' 16 3).toNat ≤ 5) ∨
   (header.extractLsb' 24 8 = 0x06 ∧ header.extractLsb' 16 3 = 0 ∧ header.extractLsb' 0 16 = 0))

/-! ## The rolling window -/

/-- One step of the rolling window: `W[t]` computed from sixteen registers and stored over `W[t-16]`
(rule R154). -/
def windowStep (f : Family) (t : Nat) (s : List (Word f)) : List (Word f) :=
  s.set (t % 16)
    (add (add (add (ssig1 f (s.getD ((t - 2) % 16) 0)) (s.getD ((t - 7) % 16) 0))
      (ssig0 f (s.getD ((t - 15) % 16) 0))) (s.getD (t % 16) 0))

/-- The sixteen registers after the words `W[16]` … `W[15 + n]` were computed. -/
def rollingWindow (f : Family) (block : List Byte) : Nat → List (Word f)
  | 0 => blockWords f block
  | n + 1 => windowStep f (16 + n) (rollingWindow f block n)

/-! ## Comparing two states -/

/-- Two states equal but for values the spec leaves unspecified (rule R36): outside phase ACTIVE the
context's registers may differ, and the transient registers, unused upper halves and draw counters may
always differ. -/
abbrev AgreeOnSpecified (s t : State) : Prop :=
  s.phase = t.phase ∧ s.variant = t.variant ∧ s.err = t.err ∧
  s.commands = t.commands ∧ s.responses = t.responses ∧ s.resetInput = t.resetInput ∧
  (s.phase = .active →
    s.byteCounter.toNat = t.byteCounter.toNat ∧ s.bufLen = t.bufLen ∧ s.buffer = t.buffer ∧
    readChain (familyOf s.variant) s = readChain (familyOf s.variant) t)

/-- Two states equal in what may steer control (rule R162): phase, variant, `ERR`, and in phase ACTIVE the
byte counter and the buffer's length. Message bytes and chaining values may differ. -/
abbrev SameControl (s t : State) : Prop :=
  s.phase = t.phase ∧ s.variant = t.variant ∧ s.err = t.err ∧
  (s.phase = .active → s.byteCounter.toNat = t.byteCounter.toNat ∧ s.bufLen = t.bufLen)

/-- Two commands equal but for the bytes of their payloads. -/
abbrev SameShape (i j : Instr) : Prop :=
  match i with
  | .init v => j = .init v
  | .update p => ∃ q, j = .update q ∧ p.length = q.length
  | .finalize => j = .finalize
  | .reset => j = .reset
  | .digest v p => ∃ q, j = .digest v q ∧ p.length = q.length
  | .status => j = .status

/-- The commands of a list run one after another by `exec`, with nothing between them. -/
def execAll : List Instr → State → Host.Outcome State Fault Refusal
  | [], s => .next s
  | i :: is, s =>
    match exec i s with
    | .next t => execAll is t
    | .fault r => .fault r
    | .refused r => .refused r

end Sys2Proof.Machine
end

