-- ==== Sys2Proof/Certificates/Slice0/Obligations.lean ====
section
/-! DEFINITION. The statements for the provers. Each docstring names the rule of the spec it formalises. -/

open Sys2Proof Sys2Proof.Machine

/-! ## Encoding -/

/-- R85: the decoder reads a command from a header exactly when the header is legal. -/
def Obligations.HeaderDecodesExactlyWhenLegal : Prop :=
  ∀ (header : Word32) (payload : List Word32),
    (decodeFrame header payload).isSome ↔ LegalHeader header

/-- R86: a header selects a row by match and mask (and `v <= 5` for INIT and DIGEST) exactly when the
decoder reads that row's command, with the operands of its `v` and `len` fields. -/
def Obligations.HeaderSelectsItsTableRow : Prop :=
  ∀ (x : Word32) (payload : List Word32),
    (x &&& 0xFFF8FFFF = 0x01000000 ∧ (x.extractLsb' 16 3).toNat ≤ 5 ↔
      ∃ v, decodeFrame x payload = some (.init v) ∧ variantId v = x.extractLsb' 16 3) ∧
    (x &&& 0xFFFF0000 = 0x02000000 ↔
      decodeFrame x payload = some (.update (unpackBytes (x.extractLsb' 0 16).toNat payload))) ∧
    (x &&& 0xFFFFFFFF = 0x03000000 ↔ decodeFrame x payload = some .finalize) ∧
    (x &&& 0xFFFFFFFF = 0x04000000 ↔ decodeFrame x payload = some .reset) ∧
    (x &&& 0xFFF80000 = 0x05000000 ∧ (x.extractLsb' 16 3).toNat ≤ 5 ↔
      ∃ v, decodeFrame x payload = some (.digest v (unpackBytes (x.extractLsb' 0 16).toNat payload)) ∧
        variantId v = x.extractLsb' 16 3) ∧
    (x &&& 0xFFFFFFFF = 0x06000000 ↔ decodeFrame x payload = some .status)

/-- Decode and encode agree: the words of a well-formed command, followed by any words, decode to that
command and leave exactly those words (R80, R83, R86). -/
def Obligations.DecodeOfEncodeIsTheCommand : Prop :=
  ∀ (i : Instr) (rest : List Word32), i.wellFormed = true →
    decodeStream (encode i ++ rest) = some (some i, rest)

/-- The other direction: a whole frame that decodes to a command has that command's header word, and
differs from its encoding at most in the payload words' ignored positions (R83, R86). -/
def Obligations.EncodeOfDecodedHasTheSameHeader : Prop :=
  ∀ (header : Word32) (payload : List Word32) (i : Instr),
    payload.length = payloadWordCount header → decodeFrame header payload = some i →
    i.wellFormed = true ∧ encode i = header :: packBytes i.payload ∧
      i.payload = unpackBytes (header.extractLsb' 0 16).toNat payload

/-- R80: a frame is one header word and `ceil(len / 4)` payload words, `len` being bits 15:0 of the header,
whatever the header's other bits, so 1 to 16385 words; without that many words there is no frame. -/
def Obligations.FrameLengthComesFromLenAlone : Prop :=
  ∀ (header : Word32) (ws : List Word32),
    1 + ((header.extractLsb' 0 16).toNat + 3) / 4 ≤ 16385 ∧
    takeFrame (header :: ws) =
      if ((header.extractLsb' 0 16).toNat + 3) / 4 ≤ ws.length then
        some (header, ws.take (((header.extractLsb' 0 16).toNat + 3) / 4),
          ws.drop (((header.extractLsb' 0 16).toNat + 3) / 4))
      else none

/-- R83: payload byte `k` travels in word `k / 4`, the first byte of a word in bits 31:24 and the fourth in
bits 7:0; the payload is `len` bytes, two payloads that agree on those bytes are the same payload, and a
frame with `len` = 0 has no payload words. -/
def Obligations.PayloadBytesTravelInOrder : Prop :=
  ∀ (len : Nat) (ws : List Word32), len ≤ 4 * ws.length →
    (unpackBytes len ws).length = len ∧
    (∀ k, k < len →
      (unpackBytes len ws)[k]? = some ((ws.getD (k / 4) 0).extractLsb' (24 - 8 * (k % 4)) 8)) ∧
    (∀ ws' : List Word32, ws'.length = ws.length →
      (∀ k, k < len → (ws'.getD (k / 4) 0).extractLsb' (24 - 8 * (k % 4)) 8 =
        (ws.getD (k / 4) 0).extractLsb' (24 - 8 * (k % 4)) 8) →
      unpackBytes len ws' = unpackBytes len ws) ∧
    (∀ header : Word32, header.extractLsb' 0 16 = 0 → takeFrame (header :: ws) = some (header, [], ws))

/-- Words written out from the spec's encodings (R81, R82, R86; 95_test_vectors.md V50, V53) decode to the
commands they stand for, and illegal neighbours decode to nothing. -/
def Obligations.SampleWordsDecode : Prop :=
  decodeFrame 0x01050000 [] = some (.init .sha512_256) ∧
  decodeFrame 0x02000003 [0x61626300] = some (.update [0x61, 0x62, 0x63]) ∧
  decodeFrame 0x02000003 [0x616263ff] = some (.update [0x61, 0x62, 0x63]) ∧
  decodeFrame 0x03000000 [] = some .finalize ∧
  decodeFrame 0x04000000 [] = some .reset ∧
  decodeFrame 0x05030002 [0x00ff0000] = some (.digest .sha512 [0x00, 0xff]) ∧
  decodeFrame 0x06000000 [] = some .status ∧
  decodeFrame 0x01060000 [] = none ∧ decodeFrame 0x00000000 [] = none ∧
  decodeFrame 0x02080000 [] = none ∧ decodeFrame 0x04050000 [] = none

/-- R88: the fields of the status word, and its zeros in bits 18:8. -/
def Obligations.StatusWordHasFormatS : Prop :=
  ∀ (code cause : Option Cause) (ph : Phase) (v : Variant) (rlen : Nat), rlen < 256 →
    (statusWord code ph v cause rlen).extractLsb' 28 4 = causeBits code ∧
    (statusWord code ph v cause rlen).extractLsb' 26 2 = phaseBits ph ∧
    (statusWord code ph v cause rlen).extractLsb' 23 3 = variantId v ∧
    (statusWord code ph v cause rlen).extractLsb' 19 4 = causeBits cause ∧
    (statusWord code ph v cause rlen).extractLsb' 8 11 = 0 ∧
    ((statusWord code ph v cause rlen).extractLsb' 0 8).toNat = rlen

/-! ## Word arithmetic -/

/-- R131: rotation moves bit `(i + n) mod w` to bit `i`, and it is the formula on unbounded integers. -/
def Obligations.RotateRightMovesEveryBit : Prop :=
  ∀ (f : Family) (x : Word f) (n : Nat), n < f.w →
    (∀ i, i < f.w → (rotr x n).getLsbD i = x.getLsbD ((i + n) % f.w)) ∧
    rotr x 0 = x ∧
    (0 < n → (rotr x n).toNat = ((x.toNat >>> n) ||| (x.toNat <<< (f.w - n))) % 2 ^ f.w)

/-- R132: addition wraps modulo `2^w`; it is commutative and associative. -/
def Obligations.AdditionWraps : Prop :=
  ∀ (f : Family) (a b c : Word f),
    (add a b).toNat = (a.toNat + b.toNat) % 2 ^ f.w ∧ add a b = add b a ∧
      add (add a b) c = add a (add b c)

/-- The shift is division by `2^n` (R133); for amounts of `w` or more, which no rule of the engine uses, it
gives 0, and a rotation by any amount is the rotation by that amount modulo `w` (R134, the spec's decision
D21 for total functions). -/
def Obligations.ShiftRightDivides : Prop :=
  ∀ (f : Family) (x : Word f) (n : Nat),
    (shr x n).toNat = x.toNat / 2 ^ n ∧ (f.w ≤ n → shr x n = 0) ∧ rotr x n = rotr x (n % f.w)

/-- R136, R137: each bit of `x` chooses the bit of `y` or of `z`; each majority bit is 1 exactly when at
least two of the three operand bits are. -/
def Obligations.ChoiceAndMajorityBits : Prop :=
  ∀ (f : Family) (x y z : Word f) (i : Nat), i < f.w →
    (ch x y z).getLsbD i = (if x.getLsbD i then y.getLsbD i else z.getLsbD i) ∧
    (maj x y z).getLsbD i =
      decide (2 ≤ (x.getLsbD i).toNat + (y.getLsbD i).toNat + (z.getLsbD i).toNat)

/-- R138, R139: the four sigma functions of both families with their amounts written out. -/
def Obligations.SigmaFunctionsHaveTheirAmounts : Prop :=
  (∀ x : BitVec 32,
    bsig0 .w32 x = rotr x 2 ^^^ rotr x 13 ^^^ rotr x 22 ∧
    bsig1 .w32 x = rotr x 6 ^^^ rotr x 11 ^^^ rotr x 25 ∧
    ssig0 .w32 x = rotr x 7 ^^^ rotr x 18 ^^^ shr x 3 ∧
    ssig1 .w32 x = rotr x 17 ^^^ rotr x 19 ^^^ shr x 10) ∧
  (∀ x : BitVec 64,
    bsig0 .w64 x = rotr x 28 ^^^ rotr x 34 ^^^ rotr x 39 ∧
    bsig1 .w64 x = rotr x 14 ^^^ rotr x 18 ^^^ rotr x 41 ∧
    ssig0 .w64 x = rotr x 1 ^^^ rotr x 8 ^^^ shr x 7 ∧
    ssig1 .w64 x = rotr x 19 ^^^ rotr x 61 ^^^ shr x 6)

/-- R138: all four sigma functions map 0 to 0 and are linear over xor, in both families. -/
def Obligations.SigmaFunctionsAreLinear : Prop :=
  ∀ (f : Family) (g : Word f → Word f), g ∈ [bsig0 f, bsig1 f, ssig0 f, ssig1 f] →
    g 0 = 0 ∧ ∀ x y, g (x ^^^ y) = g x ^^^ g y

/-! ## Tables -/

/-- R117: for `t` = 0 … 63, `K(32, t)` is the upper half of `K(64, t)`; R116, R117: the tables have 64 and
80 entries. -/
def Obligations.RoundConstantsOfTheTwoFamilies : Prop :=
  kTable32.length = 64 ∧ kTable64.length = 80 ∧
  ∀ t : Fin 64, roundConstant .w32 t.val = (roundConstant .w64 t.val).extractLsb' 32 32

/-- R114: every variant has its own initial chaining value; no two of the six are equal, compared as lists
of numbers. -/
def Obligations.InitialValuesAreDistinct : Prop :=
  ∀ u v : Variant, u ≠ v →
    (initialValue u).toList.map BitVec.toNat ≠ (initialValue v).toList.map BitVec.toNat

/-! ## Compression -/

/-- R151, R152: the schedule has `round_count` words, the first sixteen are the block's big-endian words,
and the others follow the recurrence. -/
def Obligations.ScheduleFollowsItsRecurrence : Prop :=
  ∀ (f : Family) (block : List Byte),
    (schedule f block).length = roundCount f ∧
    (∀ i, i < 16 → (schedule f block).getD i 0 =
      BitVec.ofNat f.w (fromBe ((block.drop (i * wordBytes f)).take (wordBytes f)))) ∧
    (∀ t, 16 ≤ t → t < roundCount f → (schedule f block).getD t 0 =
      add (add (add (ssig1 f ((schedule f block).getD (t - 2) 0)) ((schedule f block).getD (t - 7) 0))
        (ssig0 f ((schedule f block).getD (t - 15) 0))) ((schedule f block).getD (t - 16) 0))

/-- R154: sixteen registers that are overwritten in turn give the same schedule words as R152. -/
def Obligations.RollingWindowGivesTheSchedule : Prop :=
  ∀ (f : Family) (block : List Byte) (n : Nat), 16 + n < roundCount f →
    (rollingWindow f block (n + 1)).getD ((16 + n) % 16) 0 = (schedule f block).getD (16 + n) 0

/-- R155, R156, R157, R158, R160: `compress` is the load of the working variables, `round_count` rounds by
the round equations, and the feed-forward. -/
def Obligations.CompressFollowsTheRoundEquations : Prop :=
  ∀ (f : Family) (hin : Eight (Word f)) (block : List Byte),
    ∃ v : Nat → Working (Word f),
      v 0 = ⟨hin.h0, hin.h1, hin.h2, hin.h3, hin.h4, hin.h5, hin.h6, hin.h7⟩ ∧
      (∀ t, t < roundCount f → ∃ t1 t2 : Word f,
        t1 = add (add (add (add (v t).h (bsig1 f (v t).e)) (ch (v t).e (v t).f (v t).g))
          (roundConstant f t)) ((schedule f block).getD t 0) ∧
        t2 = add (bsig0 f (v t).a) (maj (v t).a (v t).b (v t).c) ∧
        v (t + 1) = ⟨add t1 t2, (v t).a, (v t).b, (v t).c, add (v t).d t1, (v t).e, (v t).f, (v t).g⟩) ∧
      compress f hin block =
        ⟨add hin.h0 (v (roundCount f)).a, add hin.h1 (v (roundCount f)).b,
         add hin.h2 (v (roundCount f)).c, add hin.h3 (v (roundCount f)).d,
         add hin.h4 (v (roundCount f)).e, add hin.h5 (v (roundCount f)).f,
         add hin.h6 (v (roundCount f)).g, add hin.h7 (v (roundCount f)).h⟩

/-- R160's two worked examples: the padded block of "abc" in both families. -/
def Obligations.CompressOfTheWorkedExamples : Prop :=
  compress .w32 (initialValue .sha256)
      ([0x61, 0x62, 0x63, 0x80] ++ List.replicate 59 0x00 ++ [0x18]) =
    ⟨0xba7816bf, 0x8f01cfea, 0x414140de, 0x5dae2223, 0xb00361a3, 0x96177a9c, 0xb410ff61, 0xf20015ad⟩ ∧
  compress .w64 (initialValue .sha512)
      ([0x61, 0x62, 0x63, 0x80] ++ List.replicate 123 0x00 ++ [0x18]) =
    ⟨0xddaf35a193617aba, 0xcc417349ae204131, 0x12e6fa4e89a97ea2, 0x0a9eeee64b55d39a,
     0x2192992a274fc1a8, 0x36ba3c23a3feebbd, 0x454d4423643ce80e, 0x2a9ac94fa54ca49f⟩

/-! ## Padding and digest -/

/-- R212: the padded tail is one block when `n <= 55` (32-bit family) or `n <= 111` (64-bit family), and
two blocks when `n >= 56` or `n >= 112`. -/
def Obligations.PaddedTailIsOneOrTwoBlocks : Prop :=
  ∀ (buffered : List Byte) (count : Nat),
    (buffered.length ≤ 55 → (paddedTail .w32 buffered count).length = 64) ∧
    (56 ≤ buffered.length → buffered.length < 64 → (paddedTail .w32 buffered count).length = 2 * 64) ∧
    (buffered.length ≤ 111 → (paddedTail .w64 buffered count).length = 128) ∧
    (112 ≤ buffered.length → buffered.length < 128 → (paddedTail .w64 buffered count).length = 2 * 128)

/-- R211: the padded tail is the buffered bytes, `0x80`, the least number of zero bytes, and the message
length in bits as a big-endian integer of exactly `lfs` bytes. -/
def Obligations.PaddedTailHasTheThreeParts : Prop :=
  ∀ (f : Family) (buffered : List Byte) (count : Nat),
    buffered.length < blockSize f → 8 * count < 2 ^ (8 * lengthFieldBytes f) →
    ∃ (z : Nat) (field : List Byte),
      paddedTail f buffered count = buffered ++ [0x80] ++ List.replicate z 0x00 ++ field ∧
      (buffered.length + 1 + z) % blockSize f = blockSize f - lengthFieldBytes f ∧
      (∀ y, (buffered.length + 1 + y) % blockSize f = blockSize f - lengthFieldBytes f → z ≤ y) ∧
      field.length = lengthFieldBytes f ∧ fromBe field = 8 * count

/-- R192, R112: the digest of every chaining value has exactly `digest_length` bytes: 28, 32, 48, 64, 28,
32 for the ids 0 to 5. -/
def Obligations.DigestHasItsVariantsLength : Prop :=
  ∀ (v : Variant) (h : Eight (Word (familyOf v))),
    (digestBytes v h).length =
      match v with
      | .sha224 => 28
      | .sha256 => 32
      | .sha384 => 48
      | .sha512 => 64
      | .sha512_224 => 28
      | .sha512_256 => 32

/-- R216, R89: the digest's stream words are words of the final chaining value: in the 32-bit family word
`j` is `H[j]`, in the 64-bit family words `2j` and `2j+1` are the upper and lower halves of `H[j]`; and
SHA-512/224 ends with the upper half of `H[3]`. -/
def Obligations.DigestWordsAreChainWords : Prop :=
  (∀ h : Eight (BitVec 32),
    packBytes (digestBytes .sha224 h) = [h.h0, h.h1, h.h2, h.h3, h.h4, h.h5, h.h6] ∧
    packBytes (digestBytes .sha256 h) = [h.h0, h.h1, h.h2, h.h3, h.h4, h.h5, h.h6, h.h7]) ∧
  (∀ h : Eight (BitVec 64), ∃ hi lo : BitVec 64 → Word32,
    (∀ x, hi x = x.extractLsb' 32 32 ∧ lo x = x.extractLsb' 0 32) ∧
    packBytes (digestBytes .sha384 h) =
      [hi h.h0, lo h.h0, hi h.h1, lo h.h1, hi h.h2, lo h.h2, hi h.h3, lo h.h3,
       hi h.h4, lo h.h4, hi h.h5, lo h.h5] ∧
    packBytes (digestBytes .sha512 h) =
      [hi h.h0, lo h.h0, hi h.h1, lo h.h1, hi h.h2, lo h.h2, hi h.h3, lo h.h3,
       hi h.h4, lo h.h4, hi h.h5, lo h.h5, hi h.h6, lo h.h6, hi h.h7, lo h.h7] ∧
    packBytes (digestBytes .sha512_224 h) =
      [hi h.h0, lo h.h0, hi h.h1, lo h.h1, hi h.h2, lo h.h2, hi h.h3] ∧
    packBytes (digestBytes .sha512_256 h) =
      [hi h.h0, lo h.h0, hi h.h1, lo h.h1, hi h.h2, lo h.h2, hi h.h3, lo h.h3])

/-! ## The commands -/

/-- R181: INIT completes in every state, with the registers it writes and the status it answers. It leaves
the command stream, the responses already there and the reset input alone. -/
def Obligations.InitStartsAComputation : Prop :=
  ∀ (v : Variant) (s : State), ∃ t, exec (.init v) s = .next t ∧
    t.variant = v ∧ readChain (familyOf v) t = initialValue v ∧ t.byteCounter = 0 ∧ t.bufLen = 0 ∧
    t.phase = .active ∧ t.err = none ∧
    t.responses = s.responses ++ [statusWord none .active v none 0] ∧
    t.commands = s.commands ∧ t.resetInput = s.resetInput

/-- R182, R183, R23: in phase ACTIVE, where the count stays admissible, UPDATE completes: `byte_counter`
grows by the payload's length, `buf_len` counts modulo the block size, and `VARIANT`, `PHASE`, `ERR`, the
command stream and the reset input stay. -/
def Obligations.UpdateCountsItsPayload : Prop :=
  ∀ (p : List Byte) (s : State), s.phase = .active →
    s.byteCounter.toNat + p.length ≤ maxByteCount (familyOf s.variant) →
    ∃ t, exec (.update p) s = .next t ∧
      t.byteCounter.toNat = s.byteCounter.toNat + p.length ∧
      (s.bufLen.toNat < blockSize (familyOf s.variant) →
        t.bufLen.toNat = (s.bufLen.toNat + p.length) % blockSize (familyOf s.variant)) ∧
      t.variant = s.variant ∧ t.phase = .active ∧ t.err = s.err ∧
      t.responses = s.responses ++ [statusWord none .active s.variant s.err 0] ∧
      t.commands = s.commands ∧ t.resetInput = s.resetInput

/-- R182, R183: an UPDATE that does not fill the buffer stores its bytes from index `buf_len` on and leaves
every other byte of the buffer and `H` alone. That the transient registers and the draw counter stay too is
the model's choice (log entries 1 and 5). The premise on the buffer's form is part of the model's invariant
(statement InvariantIsKeptByEveryStep). -/
def Obligations.ShortUpdateOnlyBuffers : Prop :=
  ∀ (p : List Byte) (s : State), s.phase = .active → Memory.wf s.buffer →
    s.byteCounter.toNat + p.length ≤ maxByteCount (familyOf s.variant) →
    s.bufLen.toNat + p.length < blockSize (familyOf s.variant) →
    ∃ t, exec (.update p) s = .next t ∧
      (∀ a, readByte t a =
        if s.bufLen.toNat ≤ a ∧ a < s.bufLen.toNat + p.length then p.getD (a - s.bufLen.toNat) 0
        else readByte s a) ∧
      t.bufLen.toNat = s.bufLen.toNat + p.length ∧
      t.h = s.h ∧ t.datapath = s.datapath ∧ t.draws = s.draws

/-- R183, R161, R55: the UPDATE that fills the buffer exactly compresses the buffered bytes followed by its
payload into `H`, and the buffer is then empty, its bytes unspecified (log entry 3). `Ready` is what R28 says
of phase ACTIVE (statement InvariantIsKeptByEveryStep). -/
def Obligations.FullBufferIsCompressed : Prop :=
  ∀ (p : List Byte) (s : State), s.phase = .active → Ready s →
    s.byteCounter.toNat + p.length ≤ maxByteCount (familyOf s.variant) →
    s.bufLen.toNat + p.length = blockSize (familyOf s.variant) →
    ∃ t, exec (.update p) s = .next t ∧
      readChain (familyOf s.variant) t =
        compress (familyOf s.variant) (readChain (familyOf s.variant) s)
          (memRead s 0 s.bufLen.toNat ++ p) ∧
      t.bufLen = 0 ∧ ∀ a, memoryRead t.buffer a = none

/-- R182, R184: UPDATE raises USAGE outside phase ACTIVE. In phase ACTIVE it raises OVERFLOW exactly when
the true sum exceeds `2^61 - 1` (32-bit family) or `2^125 - 1` (64-bit family), before a byte is absorbed;
otherwise it absorbs the payload and answers OK, and `PHASE` and `ERR` stay. -/
def Obligations.UpdateRaisesUsageThenOverflowElseAbsorbs : Prop :=
  ∀ (p : List Byte) (s : State),
    (s.phase ≠ .active → exec (.update p) s = .next (raise .usage s)) ∧
    (s.phase = .active → CountOverflows (.update p) s →
      exec (.update p) s = .next (raise .overflow s)) ∧
    (s.phase = .active → ¬ CountOverflows (.update p) s →
      exec (.update p) s = .next (respond none [] (absorb p s)) ∧
      (absorb p s).phase = .active ∧ (absorb p s).err = s.err)

/-- R185: cutting a message differently over UPDATE commands changes nothing but the number of responses:
one UPDATE of `p ++ q` leaves the same state as UPDATE `p` then UPDATE `q`. -/
def Obligations.CuttingAMessageChangesNothing : Prop :=
  ∀ (p q : List Byte) (s : State), s.phase = .active →
    s.byteCounter.toNat + (p.length + q.length) ≤ maxByteCount (familyOf s.variant) →
    ∃ t u, exec (.update (p ++ q)) s = .next t ∧ execAll [.update p, .update q] s = .next u ∧
      { u with responses := t.responses } = t

/-- R186, R218: in phase ACTIVE, FINALIZE completes: it answers the first `digest_length` bytes of the
chaining value after the padded tail, and moves to phase FINALIZED; `VARIANT`, `ERR`, the command stream
and the reset input stay. In the other phases it raises USAGE. -/
def Obligations.FinalizeAnswersTheDigest : Prop :=
  ∀ s : State,
    (s.phase = .active →
      ∃ (t : State) (z : Nat) (tail digest : List Byte), exec .finalize s = .next t ∧
        (z : Int) = ((blockSize (familyOf s.variant) : Int) - lengthFieldBytes (familyOf s.variant) -
          (s.bufLen.toNat + 1)) % blockSize (familyOf s.variant) ∧
        tail = memRead s 0 s.bufLen.toNat ++ [0x80] ++ List.replicate z 0x00 ++
          be (lengthFieldBytes (familyOf s.variant)) (8 * s.byteCounter.toNat) ∧
        digest = (serialise (familyOf s.variant)
          (compressBlocks (familyOf s.variant) (tail.length / blockSize (familyOf s.variant))
            (readChain (familyOf s.variant) s) tail)).take (digestLength s.variant) ∧
        t.responses = s.responses ++
          statusWord none .finalized s.variant s.err (digestLength s.variant) :: packBytes digest ∧
        t.phase = .finalized ∧ t.variant = s.variant ∧ t.err = s.err ∧
        t.commands = s.commands ∧ t.resetInput = s.resetInput) ∧
    (s.phase ≠ .active → exec .finalize s = .next (raise .usage s))

/-- R187: in the phases ACTIVE and FINALIZED, RESET completes and equals INIT of the bound variant; in the
phases EMPTY and ERROR it raises USAGE. -/
def Obligations.ResetIsInitOfTheBoundVariant : Prop :=
  ∀ s : State,
    ((s.phase = .active ∨ s.phase = .finalized) → ∃ t, exec .reset s = .next t ∧
      exec (.init s.variant) s = .next t ∧ t.variant = s.variant ∧ t.phase = .active ∧ t.err = none ∧
      readChain (familyOf s.variant) t = initialValue s.variant ∧ t.byteCounter = 0 ∧ t.bufLen = 0 ∧
      t.responses = s.responses ++ [statusWord none .active s.variant none 0] ∧
      t.commands = s.commands ∧ t.resetInput = s.resetInput) ∧
    ((s.phase = .empty ∨ s.phase = .error) → exec .reset s = .next (raise .usage s))

/-- R190: DIGEST completes in every state, and its response and final state are those of the sequence
INIT, UPDATE, FINALIZE, which differs only in the two responses before the last. -/
def Obligations.DigestIsInitUpdateFinalize : Prop :=
  ∀ (v : Variant) (p : List Byte) (s : State), p.length ≤ 65535 →
    ∃ (t u : State) (answer : List Word32), exec (.digest v p) s = .next t ∧
      execAll [.init v, .update p, .finalize] s = .next u ∧
      { u with responses := t.responses } = t ∧
      t.responses = s.responses ++ answer ∧
      u.responses = s.responses ++
        [statusWord none .active v none 0, statusWord none .active v none 0] ++ answer ∧
      t.phase = .finalized ∧ t.variant = v ∧ t.err = none

/-- R190, R215, R217: DIGEST completes with the digest of the whole payload, in every state. -/
def Obligations.DigestAnswersTheMessageDigest : Prop :=
  ∀ (v : Variant) (p : List Byte) (s : State), p.length ≤ 65535 →
    ∃ t, exec (.digest v p) s = .next t ∧
      t.responses = s.responses ++
        statusWord none .finalized v none (digestLength v) :: packBytes (messageDigest v p) ∧
      t.commands = s.commands ∧ t.resetInput = s.resetInput

/-- R191: STATUS completes in every state and changes nothing; its answer carries `PHASE`, `VARIANT` and
`ERR` with code OK. -/
def Obligations.StatusChangesNothing : Prop :=
  ∀ s : State, ∃ t, exec .status s = .next t ∧
    t.responses = s.responses ++ [statusWord none s.phase s.variant s.err 0] ∧
    { t with responses := s.responses } = s

/-! ## Whole messages -/

/-- R28, R185: a context that holds a message holds, after UPDATE, the message with the payload appended. -/
def Obligations.UpdateAppendsToTheMessage : Prop :=
  ∀ (v : Variant) (m p : List Byte) (s : State), Holds v m s →
    m.length + p.length ≤ maxByteCount (familyOf v) →
    ∃ t, exec (.update p) s = .next t ∧ Holds v (m ++ p) t

/-- R210 to R218: FINALIZE of a context that holds a message answers the digest of that whole message. -/
def Obligations.FinalizeAnswersTheMessageDigest : Prop :=
  ∀ (v : Variant) (m : List Byte) (s : State), Holds v m s →
    ∃ t, exec .finalize s = .next t ∧ t.phase = .finalized ∧
      t.responses = s.responses ++
        statusWord none .finalized v none (digestLength v) :: packBytes (messageDigest v m)

/-- The engine computes SHA-2, from any state with an empty command stream: for every variant and every
cutting of a message into UPDATE payloads, the frames INIT, UPDATE …, FINALIZE, sent as words and run by
`step`, are answered by OK statuses and at the end by the digest of the concatenated message (R193). -/
def Obligations.EngineHashesEveryMessage : Prop :=
  ∀ (v : Variant) (chunks : List (List Byte)) (s : State),
    s.resetInput = false → s.commands = [] → (∀ p ∈ chunks, p.length ≤ 65535) →
    chunks.flatten.length ≤ maxByteCount (familyOf v) →
    ∃ t, Sys2Proof.core.run (chunks.length + 2)
        (hostSend (encode (.init v) ++ chunks.flatMap (fun p => encode (.update p)) ++ encode .finalize) s) =
          .next t ∧
      t.responses = s.responses ++
        List.replicate (chunks.length + 1) (statusWord none .active v none 0) ++
        statusWord none .finalized v none (digestLength v) :: packBytes (messageDigest v chunks.flatten) ∧
      t.commands = [] ∧ t.phase = .finalized

/-- R188: after FINALIZE, RESET makes the context fresh: the same message again gives the same digest, and
no message gives the digest of the empty message. -/
def Obligations.ResetMakesTheContextFresh : Prop :=
  ∀ (v : Variant) (x : List Byte) (s : State), x.length ≤ 65535 →
    (∃ (t : State) (a d : List Word32),
      execAll [.init v, .update x, .finalize, .reset, .update x, .finalize] s = .next t ∧
      t.responses = s.responses ++ a ++ d ++ a ++ d ∧
      d = statusWord none .finalized v none (digestLength v) :: packBytes (messageDigest v x)) ∧
    (∃ (t u : State) (a d : List Word32),
      execAll [.init v, .update x, .finalize, .reset, .finalize] s = .next t ∧
      execAll [.init v, .finalize] s = .next u ∧
      t.responses = s.responses ++ a ++ d ∧
      u.responses = s.responses ++ [statusWord none .active v none 0] ++ d)

/-- R91: the UPDATE commands that a long UPDATE expands to can each be encoded, carry the bytes in order,
and leave the state that absorbing all the bytes leaves, but for the responses. -/
def Obligations.LongUpdateExpands : Prop :=
  ∀ (p : List Byte) (s : State), s.phase = .active →
    s.byteCounter.toNat + p.length ≤ maxByteCount (familyOf s.variant) →
    (∀ i ∈ expandUpdate p, i.wellFormed = true) ∧
    (expandUpdate p).flatMap Instr.payload = p ∧
    (65535 < p.length → (expandUpdate p).length = (p.length + 65534) / 65535) ∧
    ∃ t, execAll (expandUpdate p) s = .next t ∧ { t with responses := s.responses } = absorb p s

/-! ## Lifecycle and errors -/

/-- R195: the transition table. In a cell that names USAGE the command raises it; in the others the command
succeeds with code OK and the table's phase, except an UPDATE that overflows, which raises OVERFLOW. -/
def Obligations.TransitionTable : Prop :=
  ∀ (i : Instr) (s : State), ∃ t, exec i s = .next t ∧
    (transition s.phase i = none → t = raise .usage s ∧ t.phase = .error) ∧
    (∀ ph, transition s.phase i = some ph →
      (CountOverflows i s ∧ s.phase = .active → t = raise .overflow s ∧ t.phase = .error) ∧
      (¬ (CountOverflows i s ∧ s.phase = .active) → t.phase = ph ∧ ∃ (rlen : Nat) (ws : List Word32),
        t.responses = s.responses ++ statusWord none ph t.variant t.err rlen :: ws))

/-- R236, R239, R237: error entry. The first cause is kept, `PHASE` becomes ERROR, `VARIANT`, the command
stream and the reset input stay, and the response is the status word alone. -/
def Obligations.ErrorEntry : Prop :=
  ∀ (x : Cause) (s : State),
    (raise x s).phase = .error ∧
    (s.phase ≠ .error → (raise x s).err = some x) ∧ (s.phase = .error → (raise x s).err = s.err) ∧
    (raise x s).variant = s.variant ∧
    (raise x s).responses =
      s.responses ++ [statusWord (some x) .error s.variant (raise x s).err 0] ∧
    (raise x s).commands = s.commands ∧ (raise x s).resetInput = s.resetInput

/-- R85, R234: a whole frame with a legal header runs a command; one with an illegal header raises ILLEGAL,
in every phase, after the frame was consumed, payload words included. -/
def Obligations.IllegalFrameIsConsumedAndRaisesIllegal : Prop :=
  ∀ (s : State) (header : Word32) (payload rest : List Word32), s.resetInput = false →
    s.commands = header :: (payload ++ rest) →
    payload.length = ((header.extractLsb' 0 16).toNat + 3) / 4 →
    (LegalHeader header → ∃ i, decodeFrame header payload = some i ∧
      step s = exec i { s with commands := rest }) ∧
    (¬ LegalHeader header → ∃ t, step s = .next t ∧ t = raise .illegal { s with commands := rest } ∧
      t.commands = rest ∧ t.phase = .error ∧
      t.responses = s.responses ++ [statusWord (some .illegal) .error s.variant t.err 0])

/-- R238: phase ERROR is left only by a hardware reset, by INIT or by DIGEST, which also clear `ERR`. -/
def Obligations.OnlyInitDigestOrResetLeaveError : Prop :=
  ∀ s t : State, s.phase = .error → step s = .next t → t.phase ≠ .error →
    t.err = none ∧ (s.resetInput = true ∨
      ∃ i rest, decodeStream s.commands = some (some i, rest) ∧
        ((∃ v, i = .init v) ∨ ∃ v p, i = .digest v p))

/-- R21: `VARIANT` is written only by INIT and DIGEST, with their operand, and by hardware reset, with 0. -/
def Obligations.OnlyInitAndDigestBindAVariant : Prop :=
  ∀ s t : State, step s = .next t → t.variant ≠ s.variant →
    (s.resetInput = true ∧ t.variant = .sha224) ∨
      ∃ i rest, decodeStream s.commands = some (some i, rest) ∧
        (i = .init t.variant ∨ ∃ p, i = .digest t.variant p)

/-! ## The step -/

/-- R7, R268: every step answers a next state: no fault, no refusal, in every state. -/
def Obligations.EveryStepAnswersANextState : Prop := ∀ s : State, ∃ t, step s = .next t

/-- A step runs the decoded command (R80, R180): with a frame at the front of the command stream that
decodes to `i`, and no reset, the step is `exec i` on the state whose command stream lost that frame; the
frame of every well-formed command is such a frame. -/
def Obligations.StepRunsTheDecodedCommand : Prop :=
  (∀ (s : State) (header : Word32) (payload rest : List Word32) (i : Instr), s.resetInput = false →
    s.commands = header :: (payload ++ rest) →
    payload.length = ((header.extractLsb' 0 16).toNat + 3) / 4 → decodeFrame header payload = some i →
    step s = exec i { s with commands := rest }) ∧
  (∀ (s : State) (rest : List Word32) (i : Instr), s.resetInput = false → i.wellFormed = true →
    s.commands = encode i ++ rest → step s = exec i { s with commands := rest })

/-- R264: with no whole frame in the command stream the engine waits. That the whole state stays, the partial
frame's words in the stream included, is the model's choice (log entry 8). -/
def Obligations.WithoutAWholeFrameTheEngineWaits : Prop :=
  ∀ s : State, s.resetInput = false →
    (s.commands = [] ∨ ∃ header ws, s.commands = header :: ws ∧
      ws.length < ((header.extractLsb' 0 16).toNat + 3) / 4) →
    step s = .next s

/-- R88, R87: a step that consumes a frame produces exactly one response frame: a status word of format S,
then `rlen / 4` words. Its fields are the code, `PHASE`, `VARIANT` and `ERR` after the command, zeros, and
`rlen`, which is `digest_length` after a successful FINALIZE or DIGEST and otherwise 0; a response whose
code is not 0 has `rlen` 0 and phase ERROR. -/
def Obligations.OneResponseFramePerCommandFrame : Prop :=
  ∀ (s : State) (header : Word32) (payload rest : List Word32), s.resetInput = false →
    s.commands = header :: (payload ++ rest) →
    payload.length = ((header.extractLsb' 0 16).toNat + 3) / 4 →
    ∃ (t : State) (code : Option Cause) (status : Word32) (ws : List Word32), step s = .next t ∧
      t.commands = rest ∧ t.resetInput = false ∧ t.responses = s.responses ++ status :: ws ∧
      status.extractLsb' 28 4 = causeBits code ∧ status.extractLsb' 26 2 = phaseBits t.phase ∧
      status.extractLsb' 23 3 = variantId t.variant ∧ status.extractLsb' 19 4 = causeBits t.err ∧
      status.extractLsb' 8 11 = 0 ∧ ws.length = (status.extractLsb' 0 8).toNat / 4 ∧
      (code = none ∧ (decodeFrame header payload = some .finalize ∨
          ∃ v p, decodeFrame header payload = some (.digest v p)) →
        (status.extractLsb' 0 8).toNat = digestLength t.variant) ∧
      (¬ (code = none ∧ (decodeFrame header payload = some .finalize ∨
          ∃ v p, decodeFrame header payload = some (.digest v p))) →
        (status.extractLsb' 0 8).toNat = 0) ∧
      (code ≠ none → (status.extractLsb' 0 8).toNat = 0 ∧ t.phase = .error)

/-- R260: hardware reset (the model's reset input, log entry 7), whatever the engine was doing: `PHASE`
EMPTY, `VARIANT` 0, `ERR` 0, both streams empty, no response; and the first STATUS after it answers
0x00000000. -/
def Obligations.HardwareResetEmptiesTheEngine : Prop :=
  ∀ s : State, s.resetInput = true → ∃ t u, step s = .next t ∧
    t.phase = .empty ∧ t.variant = .sha224 ∧ t.err = none ∧ t.commands = [] ∧ t.responses = [] ∧
    t.resetInput = false ∧ exec .status t = .next u ∧ u.responses = [0x00000000]

/-- R260, R36: the launch state has the values the spec gives for hardware reset. -/
def Obligations.LaunchStateIsAfterHardwareReset : Prop :=
  State.reset.phase = .empty ∧ State.reset.variant = .sha224 ∧ State.reset.err = none ∧
  State.reset.commands = [] ∧ State.reset.responses = []

/-! ## Invariants and what cannot be observed -/

/-- R27, R28: the invariant between commands is kept by every step, from every state that meets it. -/
def Obligations.InvariantIsKeptByEveryStep : Prop :=
  ∀ s t : State, EngineInv s → step s = .next t → EngineInv t

/-- R27, R28: the launch state meets the invariant. -/
def Obligations.LaunchStateMeetsTheInvariant : Prop := EngineInv State.reset

/-- R37, R15: unspecified values are never observed. Two states that agree on everything the spec
specifies step to states that agree again, responses included. -/
def Obligations.UnspecifiedValuesAreNeverObserved : Prop :=
  ∀ s t : State, EngineInv s → AgreeOnSpecified s t →
    ∃ s' t', step s = .next s' ∧ step t = .next t' ∧ AgreeOnSpecified s' t'

/-- R162, R166, R240: control does not depend on data. Two commands of one shape, run in two states that
agree on phase, variant, `ERR` and lengths, whatever their message bytes and chaining values, end alike:
same control state, same status word, payloads of the same length. -/
def Obligations.ControlDoesNotDependOnData : Prop :=
  ∀ (i j : Instr) (s t : State), SameShape i j → SameControl s t →
    ∃ (s' t' : State) (status : Word32) (ws xs : List Word32),
      exec i s = .next s' ∧ exec j t = .next t' ∧ SameControl s' t' ∧
      s'.responses = s.responses ++ status :: ws ∧ t'.responses = t.responses ++ status :: xs ∧
      ws.length = xs.length
end

