-- ==== Sys2Proof/Laws/Compress.lean ====
section
/-! SUPPORT. The laws of the schedule, of compressing several blocks, and of the padding's lengths. -/

namespace Sys2Proof.Machine

/-! ## Schedule -/

theorem expandSchedule_drop (f : Family) (n : Nat) (ws : List (Word f)) :
    (expandSchedule f n ws).drop n = ws := by
  induction n generalizing ws with
  | zero => rfl
  | succ n ih =>
    simp only [expandSchedule]
    rw [← List.drop_drop, ih]
    rfl

@[simp] theorem expandSchedule_length (f : Family) (n : Nat) (ws : List (Word f)) :
    (expandSchedule f n ws).length = n + ws.length := by
  induction n generalizing ws with
  | zero => simp [expandSchedule]
  | succ n ih => simp [expandSchedule, ih]; omega

/-- Each word the expander made is the next schedule word of the words behind it. -/
theorem expandSchedule_getElem? (f : Family) (n : Nat) (ws : List (Word f)) (j : Nat) (h : j < n) :
    (expandSchedule f n ws)[j]? =
      some (nextScheduleWord f ((expandSchedule f n ws).drop (j + 1))) := by
  induction n generalizing ws with
  | zero => omega
  | succ n ih =>
    simp only [expandSchedule]
    by_cases hj : j < n
    · exact ih _ hj
    · obtain rfl : j = n := by omega
      have hd := expandSchedule_drop f j (nextScheduleWord f ws :: ws)
      have h2 : (expandSchedule f j (nextScheduleWord f ws :: ws)).drop (j + 1) = ws := by
        rw [← List.drop_drop, hd]; rfl
      rw [h2, ← Nat.add_zero j, ← List.getElem?_drop, Nat.add_zero, hd]
      rfl

@[simp] theorem loadWords_length (f : Family) (n : Nat) (block : List Byte) :
    (loadWords f n block).length = n := by
  induction n generalizing block with
  | zero => rfl
  | succ n ih => simp [loadWords, ih]

@[simp] theorem blockWords_length (f : Family) (block : List Byte) : (blockWords f block).length = 16 :=
  loadWords_length f 16 block

/-- The schedule has `round_count` words. -/
@[simp] theorem schedule_length (f : Family) (block : List Byte) :
    (schedule f block).length = roundCount f := by
  simp only [schedule, List.length_reverse, expandSchedule_length, blockWords_length]
  cases f <;> rfl

/-- The word `i` of a loaded block is the big-endian value of its bytes (rule R151). -/
theorem loadWords_getElem? (f : Family) (n : Nat) (block : List Byte) (i : Nat) (h : i < n) :
    (loadWords f n block)[i]? =
      some (BitVec.ofNat f.w (fromBe ((block.drop (i * wordBytes f)).take (wordBytes f)))) := by
  induction n generalizing block i with
  | zero => omega
  | succ n ih =>
    cases i with
    | zero => simp [loadWords]
    | succ i =>
      simp only [loadWords, List.getElem?_cons_succ]
      rw [ih _ _ (by omega), List.drop_drop]
      congr 5
      ring

/-! ## Several blocks -/

/-- Blocks compressed in two goes. -/
theorem compressBlocks_add (f : Family) (m n : Nat) (h : Eight (Word f)) (bytes : List Byte) :
    compressBlocks f (m + n) h bytes =
      compressBlocks f n (compressBlocks f m h bytes) (bytes.drop (m * blockSize f)) := by
  induction m generalizing h bytes with
  | zero => simp [compressBlocks]
  | succ m ih =>
    rw [show m + 1 + n = (m + n) + 1 by omega]
    simp only [compressBlocks, ih, List.drop_drop]
    congr 2
    ring

/-- Only the first `n` blocks count. -/
theorem compressBlocks_append (f : Family) (n : Nat) (h : Eight (Word f)) (p q : List Byte)
    (hp : n * blockSize f ≤ p.length) : compressBlocks f n h (p ++ q) = compressBlocks f n h p := by
  induction n generalizing h p with
  | zero => rfl
  | succ n ih =>
    have h1 : blockSize f ≤ p.length := by
      have : blockSize f ≤ (n + 1) * blockSize f := Nat.le_mul_of_pos_left _ (by omega)
      omega
    simp only [compressBlocks]
    rw [List.take_append_of_le_length h1, List.drop_append_of_le_length h1, ih]
    rw [List.length_drop]
    have : (n + 1) * blockSize f = n * blockSize f + blockSize f := by ring
    omega

/-! ## Lengths -/

@[simp] theorem be_length (n v : Nat) : (be n v).length = n := by
  induction n with
  | zero => rfl
  | succ n ih => simp [be, ih]

@[simp] theorem padding_length (f : Family) (n count : Nat) :
    (padding f n count).length = 1 + zeroCount f n + lengthFieldBytes f := by
  simp [padding]; omega

theorem flatMap_length_of_forall {α β : Type} (g : α → List β) (n : Nat) (h : ∀ x, (g x).length = n)
    (l : List α) : (l.flatMap g).length = n * l.length := by
  induction l with
  | nil => simp
  | cons x l ih => simp [ih, h]; ring

@[simp] theorem serialise_length (f : Family) (h : Eight (Word f)) :
    (serialise f h).length = 8 * wordBytes f := by
  rw [serialise, flatMap_length_of_forall _ (wordBytes f) (fun x => be_length _ _)]
  simp [Eight.toList]; ring

/-- The zero bytes of step 2 in the two cases of rule R212. -/
theorem zeroCount_eq (f : Family) (n : Nat) (h : n < blockSize f) :
    zeroCount f n =
      if n + 1 + lengthFieldBytes f ≤ blockSize f then blockSize f - lengthFieldBytes f - 1 - n
      else 2 * blockSize f - lengthFieldBytes f - 1 - n := by
  by_cases h2 : n + 1 + lengthFieldBytes f ≤ blockSize f
  · rw [if_pos h2]
    cases f <;> simp only [zeroCount, blockSize, lengthFieldBytes] at h h2 ⊢ <;> omega
  · rw [if_neg h2]
    cases f <;> simp only [zeroCount, blockSize, lengthFieldBytes] at h h2 ⊢ <;> omega

/-- Every word that `be` writes is read back by `from_be` (rule R13). -/
theorem fromBe_append (l : List Byte) (b : Byte) : fromBe (l ++ [b]) = fromBe l * 256 + b.toNat := by
  simp [fromBe]

theorem foldl_be (n v acc : Nat) (h : v < 2 ^ (8 * n)) :
    (be n v).foldl (fun acc b => acc * 256 + b.toNat) acc = acc * 2 ^ (8 * n) + v := by
  induction n generalizing v acc with
  | zero => simp at h; subst h; simp [be]
  | succ n ih =>
    have hlow : ∀ m v, be m (v % 2 ^ (8 * m)) = be m v := by
      intro m
      induction m with
      | zero => intro v; rfl
      | succ m ihm =>
        intro v
        simp only [be]
        congr 1
        · apply BitVec.eq_of_toNat_eq
          simp only [BitVec.toNat_ofNat, Nat.shiftRight_eq_div_pow]
          rw [show 8 * (m + 1) = 8 * m + 8 by ring, Nat.pow_add, Nat.mod_mul_right_div_self, Nat.mod_mod]
        · rw [← ihm (v % _), ← ihm v, Nat.mod_mod_of_dvd]
          exact Nat.pow_dvd_pow 2 (by omega)
    simp only [be, List.foldl_cons]
    rw [← hlow n v, ih _ _ (Nat.mod_lt _ (by positivity))]
    simp only [BitVec.toNat_ofNat, Nat.shiftRight_eq_div_pow]
    have hdiv : v / 2 ^ (8 * n) < 2 ^ 8 := by
      rw [Nat.div_lt_iff_lt_mul (by positivity), ← Nat.pow_add]
      rwa [show 8 + 8 * n = 8 * (n + 1) by ring]
    rw [Nat.mod_eq_of_lt hdiv]
    have := Nat.div_add_mod v (2 ^ (8 * n))
    rw [show 8 * (n + 1) = 8 * n + 8 by ring, Nat.pow_add]
    nlinarith

/-- `from_be` inverts `be` (rule R13). -/
theorem fromBe_be (n v : Nat) (h : v < 2 ^ (8 * n)) : fromBe (be n v) = v := by
  rw [fromBe, foldl_be n v 0 h]; simp

end Sys2Proof.Machine
end

