-- ==== Sys2Proof/Laws/State.lean ====
section
/-! SUPPORT. One lemma per field per operation over the state, each true by `rfl`, so that no proof
unfolds a record update; and what reading `H` back gives after it is written. -/

namespace Sys2Proof.Machine

variable (s : State)

/-! ## `memWrite` -/

@[simp] theorem memWrite_variant (i : Nat) (b : Byte) :
    (memWrite s i b).variant = s.variant := rfl
@[simp] theorem memWrite_h (i : Nat) (b : Byte) :
    (memWrite s i b).h = s.h := rfl
@[simp] theorem memWrite_byteCounter (i : Nat) (b : Byte) :
    (memWrite s i b).byteCounter = s.byteCounter := rfl
@[simp] theorem memWrite_buffer (i : Nat) (b : Byte) :
    (memWrite s i b).buffer = memoryWrite s.buffer i b := rfl
@[simp] theorem memWrite_bufLen (i : Nat) (b : Byte) :
    (memWrite s i b).bufLen = s.bufLen := rfl
@[simp] theorem memWrite_phase (i : Nat) (b : Byte) :
    (memWrite s i b).phase = s.phase := rfl
@[simp] theorem memWrite_err (i : Nat) (b : Byte) :
    (memWrite s i b).err = s.err := rfl
@[simp] theorem memWrite_datapath (i : Nat) (b : Byte) :
    (memWrite s i b).datapath = s.datapath := rfl
@[simp] theorem memWrite_commands (i : Nat) (b : Byte) :
    (memWrite s i b).commands = s.commands := rfl
@[simp] theorem memWrite_responses (i : Nat) (b : Byte) :
    (memWrite s i b).responses = s.responses := rfl
@[simp] theorem memWrite_resetInput (i : Nat) (b : Byte) :
    (memWrite s i b).resetInput = s.resetInput := rfl
@[simp] theorem memWrite_draws (i : Nat) (b : Byte) :
    (memWrite s i b).draws = s.draws := rfl

/-! ## `writeChain` -/

@[simp] theorem writeChain_variant (f : Family) (v : Eight (Word f)) :
    (writeChain f v s).variant = s.variant := rfl
@[simp] theorem writeChain_h (f : Family) (v : Eight (Word f)) :
    (writeChain f v s).h = v.mapIdx (fun i x => HReg.ofWord f (Config.freeUpper s.draws i) x) := rfl
@[simp] theorem writeChain_byteCounter (f : Family) (v : Eight (Word f)) :
    (writeChain f v s).byteCounter = s.byteCounter := rfl
@[simp] theorem writeChain_buffer (f : Family) (v : Eight (Word f)) :
    (writeChain f v s).buffer = s.buffer := rfl
@[simp] theorem writeChain_bufLen (f : Family) (v : Eight (Word f)) :
    (writeChain f v s).bufLen = s.bufLen := rfl
@[simp] theorem writeChain_phase (f : Family) (v : Eight (Word f)) :
    (writeChain f v s).phase = s.phase := rfl
@[simp] theorem writeChain_err (f : Family) (v : Eight (Word f)) :
    (writeChain f v s).err = s.err := rfl
@[simp] theorem writeChain_datapath (f : Family) (v : Eight (Word f)) :
    (writeChain f v s).datapath = freeDatapath s.draws := rfl
@[simp] theorem writeChain_commands (f : Family) (v : Eight (Word f)) :
    (writeChain f v s).commands = s.commands := rfl
@[simp] theorem writeChain_responses (f : Family) (v : Eight (Word f)) :
    (writeChain f v s).responses = s.responses := rfl
@[simp] theorem writeChain_resetInput (f : Family) (v : Eight (Word f)) :
    (writeChain f v s).resetInput = s.resetInput := rfl
@[simp] theorem writeChain_draws (f : Family) (v : Eight (Word f)) :
    (writeChain f v s).draws = s.draws + 1 := rfl

/-! ## `unspecify` -/

@[simp] theorem unspecify_variant :
    (unspecify s).variant = s.variant := rfl
@[simp] theorem unspecify_h :
    (unspecify s).h = Eight.ofFn (fun i => ⟨Config.freeHalf s.draws (2 * i), Config.freeHalf s.draws (2 * i + 1)⟩) := rfl
@[simp] theorem unspecify_byteCounter :
    (unspecify s).byteCounter = Config.freeCounter _ s.draws := rfl
@[simp] theorem unspecify_buffer :
    (unspecify s).buffer = [] := rfl
@[simp] theorem unspecify_bufLen :
    (unspecify s).bufLen = Config.freeBufLen s.draws := rfl
@[simp] theorem unspecify_phase :
    (unspecify s).phase = s.phase := rfl
@[simp] theorem unspecify_err :
    (unspecify s).err = s.err := rfl
@[simp] theorem unspecify_datapath :
    (unspecify s).datapath = freeDatapath s.draws := rfl
@[simp] theorem unspecify_commands :
    (unspecify s).commands = s.commands := rfl
@[simp] theorem unspecify_responses :
    (unspecify s).responses = s.responses := rfl
@[simp] theorem unspecify_resetInput :
    (unspecify s).resetInput = s.resetInput := rfl
@[simp] theorem unspecify_draws :
    (unspecify s).draws = s.draws + 1 := rfl

/-! ## `respond` -/

@[simp] theorem respond_variant (code : Option Cause) (payload : List Byte) :
    (respond code payload s).variant = s.variant := rfl
@[simp] theorem respond_h (code : Option Cause) (payload : List Byte) :
    (respond code payload s).h = s.h := rfl
@[simp] theorem respond_byteCounter (code : Option Cause) (payload : List Byte) :
    (respond code payload s).byteCounter = s.byteCounter := rfl
@[simp] theorem respond_buffer (code : Option Cause) (payload : List Byte) :
    (respond code payload s).buffer = s.buffer := rfl
@[simp] theorem respond_bufLen (code : Option Cause) (payload : List Byte) :
    (respond code payload s).bufLen = s.bufLen := rfl
@[simp] theorem respond_phase (code : Option Cause) (payload : List Byte) :
    (respond code payload s).phase = s.phase := rfl
@[simp] theorem respond_err (code : Option Cause) (payload : List Byte) :
    (respond code payload s).err = s.err := rfl
@[simp] theorem respond_datapath (code : Option Cause) (payload : List Byte) :
    (respond code payload s).datapath = s.datapath := rfl
@[simp] theorem respond_commands (code : Option Cause) (payload : List Byte) :
    (respond code payload s).commands = s.commands := rfl
@[simp] theorem respond_responses (code : Option Cause) (payload : List Byte) :
    (respond code payload s).responses = s.responses ++ statusWord code s.phase s.variant s.err payload.length :: packBytes payload := rfl
@[simp] theorem respond_resetInput (code : Option Cause) (payload : List Byte) :
    (respond code payload s).resetInput = s.resetInput := rfl
@[simp] theorem respond_draws (code : Option Cause) (payload : List Byte) :
    (respond code payload s).draws = s.draws := rfl

/-! ## `raise` -/

@[simp] theorem raise_variant (x : Cause) :
    (raise x s).variant = s.variant := rfl
@[simp] theorem raise_h (x : Cause) :
    (raise x s).h = (unspecify s).h := rfl
@[simp] theorem raise_byteCounter (x : Cause) :
    (raise x s).byteCounter = Config.freeCounter _ s.draws := rfl
@[simp] theorem raise_buffer (x : Cause) :
    (raise x s).buffer = [] := rfl
@[simp] theorem raise_bufLen (x : Cause) :
    (raise x s).bufLen = Config.freeBufLen s.draws := rfl
@[simp] theorem raise_phase (x : Cause) :
    (raise x s).phase = .error := rfl
@[simp] theorem raise_err (x : Cause) :
    (raise x s).err = if s.phase = .error then s.err else some x := rfl
@[simp] theorem raise_datapath (x : Cause) :
    (raise x s).datapath = freeDatapath s.draws := rfl
@[simp] theorem raise_commands (x : Cause) :
    (raise x s).commands = s.commands := rfl
@[simp] theorem raise_responses (x : Cause) :
    (raise x s).responses = s.responses ++
      [statusWord (some x) .error s.variant (if s.phase = .error then s.err else some x) 0] := rfl
@[simp] theorem raise_resetInput (x : Cause) :
    (raise x s).resetInput = s.resetInput := rfl
@[simp] theorem raise_draws (x : Cause) :
    (raise x s).draws = s.draws + 1 := rfl

/-! ## `initContext` -/

@[simp] theorem initContext_variant (v : Variant) :
    (initContext v s).variant = v := rfl
@[simp] theorem initContext_h (v : Variant) :
    (initContext v s).h = (writeChain (familyOf v) (initialValue v) s).h := rfl
@[simp] theorem initContext_byteCounter (v : Variant) :
    (initContext v s).byteCounter = 0 := rfl
@[simp] theorem initContext_buffer (v : Variant) :
    (initContext v s).buffer = [] := rfl
@[simp] theorem initContext_bufLen (v : Variant) :
    (initContext v s).bufLen = 0 := rfl
@[simp] theorem initContext_phase (v : Variant) :
    (initContext v s).phase = s.phase := rfl
@[simp] theorem initContext_err (v : Variant) :
    (initContext v s).err = none := rfl
@[simp] theorem initContext_datapath (v : Variant) :
    (initContext v s).datapath = freeDatapath s.draws := rfl
@[simp] theorem initContext_commands (v : Variant) :
    (initContext v s).commands = s.commands := rfl
@[simp] theorem initContext_responses (v : Variant) :
    (initContext v s).responses = s.responses := rfl
@[simp] theorem initContext_resetInput (v : Variant) :
    (initContext v s).resetInput = s.resetInput := rfl
@[simp] theorem initContext_draws (v : Variant) :
    (initContext v s).draws = s.draws + 1 := rfl

/-! ## `finishWithDigest` -/

@[simp] theorem finishWithDigest_variant :
    (finishWithDigest s).variant = s.variant := rfl
@[simp] theorem finishWithDigest_h :
    (finishWithDigest s).h = (unspecify s).h := rfl
@[simp] theorem finishWithDigest_byteCounter :
    (finishWithDigest s).byteCounter = Config.freeCounter _ s.draws := rfl
@[simp] theorem finishWithDigest_buffer :
    (finishWithDigest s).buffer = [] := rfl
@[simp] theorem finishWithDigest_bufLen :
    (finishWithDigest s).bufLen = Config.freeBufLen s.draws := rfl
@[simp] theorem finishWithDigest_phase :
    (finishWithDigest s).phase = .finalized := rfl
@[simp] theorem finishWithDigest_err :
    (finishWithDigest s).err = s.err := rfl
@[simp] theorem finishWithDigest_datapath :
    (finishWithDigest s).datapath = freeDatapath s.draws := rfl
@[simp] theorem finishWithDigest_commands :
    (finishWithDigest s).commands = s.commands := rfl
@[simp] theorem finishWithDigest_responses :
    (finishWithDigest s).responses = s.responses ++
      statusWord none .finalized s.variant s.err (finalDigest s).length :: packBytes (finalDigest s) := rfl
@[simp] theorem finishWithDigest_resetInput :
    (finishWithDigest s).resetInput = s.resetInput := rfl
@[simp] theorem finishWithDigest_draws :
    (finishWithDigest s).draws = s.draws + 1 := rfl

/-! ## `compressBuffer` -/

@[simp] theorem compressBuffer_variant :
    (compressBuffer s).variant = s.variant := rfl
@[simp] theorem compressBuffer_h :
    (compressBuffer s).h = (writeChain (familyOf s.variant)
      (compress (familyOf s.variant) (readChain (familyOf s.variant) s)
        (memRead s 0 (blockSize (familyOf s.variant)))) s).h := rfl
@[simp] theorem compressBuffer_byteCounter :
    (compressBuffer s).byteCounter = s.byteCounter := rfl
@[simp] theorem compressBuffer_buffer :
    (compressBuffer s).buffer = [] := rfl
@[simp] theorem compressBuffer_bufLen :
    (compressBuffer s).bufLen = 0 := rfl
@[simp] theorem compressBuffer_phase :
    (compressBuffer s).phase = s.phase := rfl
@[simp] theorem compressBuffer_err :
    (compressBuffer s).err = s.err := rfl
@[simp] theorem compressBuffer_datapath :
    (compressBuffer s).datapath = freeDatapath s.draws := rfl
@[simp] theorem compressBuffer_commands :
    (compressBuffer s).commands = s.commands := rfl
@[simp] theorem compressBuffer_responses :
    (compressBuffer s).responses = s.responses := rfl
@[simp] theorem compressBuffer_resetInput :
    (compressBuffer s).resetInput = s.resetInput := rfl
@[simp] theorem compressBuffer_draws :
    (compressBuffer s).draws = s.draws + 1 := rfl

/-! ## `hardwareReset` -/

@[simp] theorem hardwareReset_variant :
    (hardwareReset s).variant = .sha224 := rfl
@[simp] theorem hardwareReset_h :
    (hardwareReset s).h = (unspecify s).h := rfl
@[simp] theorem hardwareReset_byteCounter :
    (hardwareReset s).byteCounter = Config.freeCounter _ s.draws := rfl
@[simp] theorem hardwareReset_buffer :
    (hardwareReset s).buffer = [] := rfl
@[simp] theorem hardwareReset_bufLen :
    (hardwareReset s).bufLen = Config.freeBufLen s.draws := rfl
@[simp] theorem hardwareReset_phase :
    (hardwareReset s).phase = .empty := rfl
@[simp] theorem hardwareReset_err :
    (hardwareReset s).err = none := rfl
@[simp] theorem hardwareReset_datapath :
    (hardwareReset s).datapath = freeDatapath s.draws := rfl
@[simp] theorem hardwareReset_commands :
    (hardwareReset s).commands = [] := rfl
@[simp] theorem hardwareReset_responses :
    (hardwareReset s).responses = [] := rfl
@[simp] theorem hardwareReset_resetInput :
    (hardwareReset s).resetInput = false := rfl
@[simp] theorem hardwareReset_draws :
    (hardwareReset s).draws = s.draws + 1 := rfl

/-! ## `hostSend` -/

@[simp] theorem hostSend_variant (words : List Word32) :
    (hostSend words s).variant = s.variant := rfl
@[simp] theorem hostSend_h (words : List Word32) :
    (hostSend words s).h = s.h := rfl
@[simp] theorem hostSend_byteCounter (words : List Word32) :
    (hostSend words s).byteCounter = s.byteCounter := rfl
@[simp] theorem hostSend_buffer (words : List Word32) :
    (hostSend words s).buffer = s.buffer := rfl
@[simp] theorem hostSend_bufLen (words : List Word32) :
    (hostSend words s).bufLen = s.bufLen := rfl
@[simp] theorem hostSend_phase (words : List Word32) :
    (hostSend words s).phase = s.phase := rfl
@[simp] theorem hostSend_err (words : List Word32) :
    (hostSend words s).err = s.err := rfl
@[simp] theorem hostSend_datapath (words : List Word32) :
    (hostSend words s).datapath = s.datapath := rfl
@[simp] theorem hostSend_commands (words : List Word32) :
    (hostSend words s).commands = s.commands ++ words := rfl
@[simp] theorem hostSend_responses (words : List Word32) :
    (hostSend words s).responses = s.responses := rfl
@[simp] theorem hostSend_resetInput (words : List Word32) :
    (hostSend words s).resetInput = s.resetInput := rfl
@[simp] theorem hostSend_draws (words : List Word32) :
    (hostSend words s).draws = s.draws := rfl

/-! ## `hostReset` -/

@[simp] theorem hostReset_variant :
    (hostReset s).variant = s.variant := rfl
@[simp] theorem hostReset_h :
    (hostReset s).h = s.h := rfl
@[simp] theorem hostReset_byteCounter :
    (hostReset s).byteCounter = s.byteCounter := rfl
@[simp] theorem hostReset_buffer :
    (hostReset s).buffer = s.buffer := rfl
@[simp] theorem hostReset_bufLen :
    (hostReset s).bufLen = s.bufLen := rfl
@[simp] theorem hostReset_phase :
    (hostReset s).phase = s.phase := rfl
@[simp] theorem hostReset_err :
    (hostReset s).err = s.err := rfl
@[simp] theorem hostReset_datapath :
    (hostReset s).datapath = s.datapath := rfl
@[simp] theorem hostReset_commands :
    (hostReset s).commands = s.commands := rfl
@[simp] theorem hostReset_responses :
    (hostReset s).responses = s.responses := rfl
@[simp] theorem hostReset_resetInput :
    (hostReset s).resetInput = true := rfl
@[simp] theorem hostReset_draws :
    (hostReset s).draws = s.draws := rfl

/-! ## Reading the chaining registers -/

@[simp] theorem HReg_word_ofWord (f : Family) (upper : BitVec 32) (x : Word f) :
    HReg.word f (HReg.ofWord f upper x) = x := by
  cases f
  · rfl
  · apply BitVec.eq_of_getLsbD_eq
    intro i hi
    have hi : i < 64 := hi
    simp only [HReg.ofWord, HReg.word, BitVec.getLsbD_append, BitVec.getLsbD_extractLsb']
    by_cases h : i < 32
    · simp [h]
    · simp only [h, decide_false]
      rw [show 32 + (i - 32) = i by omega, show decide (i - 32 < 32) = true by simp; omega]
      simp

/-- What is written to `H` in the width of a family reads back in that width (rule R22). -/
theorem readChain_of_h (f : Family) (v : Eight (Word f)) (s t : State) (h : t.h = (writeChain f v s).h) :
    readChain f t = v := by
  simp [readChain, h, Eight.map, Eight.mapIdx]

@[simp] theorem readChain_writeChain (f : Family) (v : Eight (Word f)) :
    readChain f (writeChain f v s) = v := readChain_of_h f v s _ rfl

@[simp] theorem readChain_initContext (v : Variant) :
    readChain (familyOf v) (initContext v s) = initialValue v := readChain_of_h _ _ s _ rfl

@[simp] theorem readChain_respond (f : Family) (code : Option Cause) (payload : List Byte) :
    readChain f (respond code payload s) = readChain f s := rfl

@[simp] theorem readChain_memWrite (f : Family) (i : Nat) (b : Byte) :
    readChain f (memWrite s i b) = readChain f s := rfl

@[simp] theorem readChain_compressBuffer :
    readChain (familyOf s.variant) (compressBuffer s) =
      compress (familyOf s.variant) (readChain (familyOf s.variant) s)
        (memRead s 0 (blockSize (familyOf s.variant))) := readChain_of_h _ _ s _ rfl

end Sys2Proof.Machine
end

