-- ==== Sys2Proof/Laws/Memory.lean ====
section
/-! SUPPORT. The laws of the partial-block buffer: read after write, other bytes alone, the canonical form
kept by every operation, and a buffer that holds exactly a list of bytes. -/

namespace Sys2Proof.Machine

/-! ## Read after write -/

/-- A write gives the byte written at its index and leaves every other index alone. -/
theorem memoryRead_memoryWrite (m : Memory) (a : Nat) (b : Byte) (x : Nat)
    (h : m.Pairwise (fun c d => c.1 < d.1)) :
    memoryRead (memoryWrite m a b) x = if x = a then some b else memoryRead m x := by
  induction m with
  | nil => simp only [memoryWrite, memoryRead, eq_comm]
  | cons c m ih =>
    obtain ⟨y, d⟩ := c
    obtain ⟨hy, hm⟩ := List.pairwise_cons.mp h
    unfold memoryWrite
    split
    · simp only [memoryRead, eq_comm]
    · split
      · subst_vars
        by_cases hx : x = y
        · simp [memoryRead, hx]
        · simp [memoryRead, hx, Ne.symm hx]
      · simp only [memoryRead, ih hm]
        by_cases hx : x = a
        · subst hx; simp; omega
        · simp [hx]

/-- Every index listed after a write was listed before, or is the one written. -/
theorem mem_memoryWrite {m : Memory} {a : Nat} {b : Byte} {c : Host.Cell} (h : c ∈ memoryWrite m a b) :
    c = (a, b) ∨ c ∈ m := by
  induction m with
  | nil => simpa [memoryWrite] using h
  | cons d m ih =>
    obtain ⟨y, e⟩ := d
    unfold memoryWrite at h
    split at h
    · simpa using h
    · split at h
      · rcases List.mem_cons.mp h with h | h
        · exact .inl h
        · exact .inr (List.mem_cons_of_mem _ h)
      · rcases List.mem_cons.mp h with h | h
        · exact .inr (h ▸ List.mem_cons_self)
        · exact (ih h).imp_right (List.mem_cons_of_mem _)

/-- A write at an index of the buffer keeps the canonical form. -/
theorem memoryWrite_wf {m : Memory} {a : Nat} (b : Byte) (h : Memory.wf m) (ha : a < Config.bufferBytes) :
    Memory.wf (memoryWrite m a b) := by
  refine ⟨?_, fun c hc => ?_⟩
  · have hp := h.1
    clear h
    induction m with
    | nil => simp [memoryWrite]
    | cons d m ih =>
      obtain ⟨y, e⟩ := d
      obtain ⟨hy, hm⟩ := List.pairwise_cons.mp hp
      unfold memoryWrite
      split
      · rename_i hlt
        refine List.pairwise_cons.mpr ⟨fun c hc => ?_, hp⟩
        rcases List.mem_cons.mp hc with rfl | hc
        · exact hlt
        · exact Nat.lt_trans hlt (hy c hc)
      · split
        · subst_vars
          exact List.pairwise_cons.mpr ⟨hy, hm⟩
        · refine List.pairwise_cons.mpr ⟨fun c hc => ?_, ih hm⟩
          rcases mem_memoryWrite hc with rfl | hc
          · simp only; omega
          · exact hy c hc
  · rcases mem_memoryWrite hc with rfl | hc
    · exact ha
    · exact h.2 c hc

/-- The empty buffer is canonical: what every operation that leaves the bytes unspecified leaves. -/
theorem Memory_wf_nil : Memory.wf [] := by simp [Memory.wf]

/-! ## A buffer that holds exactly a list of bytes -/

theorem bufferCells_nil : bufferCells [] = [] := rfl

theorem bufferCells_append_singleton (l : List Byte) (b : Byte) :
    bufferCells (l ++ [b]) = bufferCells l ++ [(l.length, b)] := by
  simp [bufferCells, List.zipIdx_append]

@[simp] theorem bufferCells_fst (l : List Byte) : (bufferCells l).map Prod.fst = List.range l.length := by
  simp [bufferCells, List.map_map, List.range_eq_range', ← List.zipIdx_map_snd]

/-- A write past every listed index is put at the end. -/
theorem memoryWrite_append (m : Memory) (a : Nat) (b : Byte) (h : ∀ c ∈ m, c.1 < a) :
    memoryWrite m a b = m ++ [(a, b)] := by
  induction m with
  | nil => rfl
  | cons c m ih =>
    obtain ⟨y, d⟩ := c
    have hy : y < a := h _ List.mem_cons_self
    simp only [memoryWrite, if_neg (show ¬ a < y by omega), if_neg (show ¬ a = y by omega),
      List.cons_append, List.cons.injEq, true_and]
    exact ih fun c hc => h c (List.mem_cons_of_mem _ hc)

theorem fst_lt_of_map_eq_range {m : Memory} {n : Nat} (h : m.map Prod.fst = List.range n) :
    ∀ c ∈ m, c.1 < n := fun c hc => by
  have : c.1 ∈ m.map Prod.fst := List.mem_map_of_mem hc
  rw [h] at this
  exact List.mem_range.mp this

/-- The buffer of a list of bytes with one byte written after them. -/
theorem memoryWrite_bufferCells (l : List Byte) (b : Byte) :
    memoryWrite (bufferCells l) l.length b = bufferCells (l ++ [b]) := by
  rw [bufferCells_append_singleton]
  exact memoryWrite_append _ _ _ (fst_lt_of_map_eq_range (bufferCells_fst l))

/-- A buffer whose indexes are `0` … `n - 1` is canonical. -/
theorem Memory_wf_of_range {m : Memory} {n : Nat} (h : m.map Prod.fst = List.range n)
    (hn : n ≤ Config.bufferBytes) : Memory.wf m := by
  refine ⟨?_, fun c hc => Nat.lt_of_lt_of_le (fst_lt_of_map_eq_range h c hc) hn⟩
  have := List.pairwise_lt_range (n := n)
  rw [← h] at this
  exact List.pairwise_map.mp this

/-- A buffer with the indexes `0` … `n - 1` holds exactly some list of `n` bytes. -/
theorem eq_bufferCells_of_range {m : Memory} {n : Nat} (h : m.map Prod.fst = List.range n) :
    m = bufferCells (m.map Prod.snd) := by
  have hl : m.length = n := by simpa using congrArg List.length h
  apply List.ext_getElem
  · simp [bufferCells]
  · intro i h1 h2
    have hi : (m.map Prod.fst)[i]'(by simpa using h1) = i := by simp [h]
    simp only [List.getElem_map] at hi
    simp [bufferCells, Prod.ext_iff, hi]

/-! ## Reading bytes -/

/-- A listed index reads as its byte. -/
theorem memoryRead_bufferCells (l : List Byte) (a : Nat) : memoryRead (bufferCells l) a = l[a]? := by
  induction l using List.reverseRecOn with
  | nil => simp [bufferCells, memoryRead]
  | append_singleton l b ih =>
    have hwf := (Memory_wf_of_range (m := bufferCells l) (bufferCells_fst l))
    rw [← memoryWrite_bufferCells, memoryRead_memoryWrite, ih]
    · by_cases h : a = l.length
      · subst h; simp
      · simp only [h, if_false]
        by_cases h2 : a < l.length
        · rw [List.getElem?_append_left h2]
        · rw [List.getElem?_eq_none (by omega), List.getElem?_eq_none (by simp; omega)]
    · have := List.pairwise_lt_range (n := l.length)
      rw [← bufferCells_fst l] at this
      exact List.pairwise_map.mp this

/-- A read of the whole of a buffer that holds exactly a list of bytes gives the list. -/
theorem memRead_bufferCells (s : State) (l : List Byte) (h : s.buffer = bufferCells l) :
    memRead s 0 l.length = l := by
  apply List.ext_getElem
  · simp [memRead]
  · intro i h1 h2
    simp [memRead, readByte, h, memoryRead_bufferCells, h2]

@[simp] theorem memRead_length (s : State) (i n : Nat) : (memRead s i n).length = n := by simp [memRead]

/-- What `MemRead` gives depends only on the buffer where all its bytes are written. -/
theorem memRead_congr {s t : State} {n : Nat} (hb : s.buffer = t.buffer)
    (hr : s.buffer.map Prod.fst = List.range n) : memRead s 0 n = memRead t 0 n := by
  obtain ⟨l, hl⟩ : ∃ l, s.buffer = bufferCells l := ⟨_, eq_bufferCells_of_range hr⟩
  have hn : l.length = n := by
    have := congrArg List.length hr
    simpa [hl, bufferCells] using this
  rw [← hn, memRead_bufferCells s l hl, memRead_bufferCells t l (hb ▸ hl)]

@[simp] theorem readByte_respond (code : Option Cause) (payload : List Byte) (s : State) (a : Nat) :
    readByte (respond code payload s) a = readByte s a := rfl

end Sys2Proof.Machine
end

