-- ==== Sys2Proof/Laws/Absorb.lean ====
section
/-! SUPPORT. What absorbing bytes does (rule R183): one spec lemma for one byte, the fields that no byte
changes, the counters, and the message that the context holds afterwards (rule R28). -/

namespace Sys2Proof.Machine

/-! ## One byte -/

/-- Everything one byte can do: it is buffered, or it completes a block, which is compressed. -/
theorem absorbByte_cases (s : State) (b : Byte) :
    (s.bufLen.toNat + 1 ≠ blockSize (familyOf s.variant) ∧
      absorbByte s b = { s with
        buffer := memoryWrite s.buffer s.bufLen.toNat b
        byteCounter := s.byteCounter + 1
        bufLen := s.bufLen + 1 }) ∨
    (s.bufLen.toNat + 1 = blockSize (familyOf s.variant) ∧
      absorbByte s b = compressBuffer { s with
        buffer := memoryWrite s.buffer s.bufLen.toNat b
        byteCounter := s.byteCounter + 1 }) := by
  unfold absorbByte
  by_cases h : s.bufLen.toNat + 1 = blockSize (familyOf s.variant)
  · exact .inr ⟨h, by simp only [if_pos h]; rfl⟩
  · exact .inl ⟨h, by simp only [if_neg h]; rfl⟩

@[simp] theorem absorbByte_variant (s : State) (b : Byte) : (absorbByte s b).variant = s.variant := by
  obtain ⟨-, h⟩ | ⟨-, h⟩ := absorbByte_cases s b <;> simp [h]

@[simp] theorem absorbByte_phase (s : State) (b : Byte) : (absorbByte s b).phase = s.phase := by
  obtain ⟨-, h⟩ | ⟨-, h⟩ := absorbByte_cases s b <;> simp [h]

@[simp] theorem absorbByte_err (s : State) (b : Byte) : (absorbByte s b).err = s.err := by
  obtain ⟨-, h⟩ | ⟨-, h⟩ := absorbByte_cases s b <;> simp [h]

@[simp] theorem absorbByte_commands (s : State) (b : Byte) : (absorbByte s b).commands = s.commands := by
  obtain ⟨-, h⟩ | ⟨-, h⟩ := absorbByte_cases s b <;> simp [h]

@[simp] theorem absorbByte_responses (s : State) (b : Byte) : (absorbByte s b).responses = s.responses := by
  obtain ⟨-, h⟩ | ⟨-, h⟩ := absorbByte_cases s b <;> simp [h]

@[simp] theorem absorbByte_resetInput (s : State) (b : Byte) : (absorbByte s b).resetInput = s.resetInput := by
  obtain ⟨-, h⟩ | ⟨-, h⟩ := absorbByte_cases s b <;> simp [h]

/-- `byte_counter` counts modulo 2^L, L the family's length field (rule R23). -/
theorem absorbByte_byteCounter (s : State) (b : Byte) :
    (absorbByte s b).byteCounter.toNat =
      (s.byteCounter.toNat + 1) % 2 ^ lengthFieldBits (familyOf s.variant) := by
  have h1 : (1 : Counter s.variant).toNat = 1 := by unfold Counter; cases familyOf s.variant <;> rfl
  have h2 : (s.byteCounter + 1).toNat =
      (s.byteCounter.toNat + 1) % 2 ^ lengthFieldBits (familyOf s.variant) := by
    rw [BitVec.toNat_add, h1]
  obtain ⟨-, h⟩ | ⟨-, h⟩ := absorbByte_cases s b <;> rw [h]
  · exact h2
  · rw [compressBuffer_byteCounter]; exact h2

/-- `buf_len` counts modulo the block size. -/
theorem absorbByte_bufLen (s : State) (b : Byte) (h : s.bufLen.toNat < blockSize (familyOf s.variant)) :
    (absorbByte s b).bufLen.toNat = (s.bufLen.toNat + 1) % blockSize (familyOf s.variant) := by
  obtain ⟨hne, hs⟩ | ⟨he, hs⟩ := absorbByte_cases s b
  · rw [hs, Nat.mod_eq_of_lt (by omega)]
    have : blockSize (familyOf s.variant) ≤ 128 := by cases familyOf s.variant <;> decide
    simp only [BitVec.toNat_add, show (1 : BitVec 7).toNat = 1 from rfl]
    omega
  · rw [hs, he, Nat.mod_self]; rfl

/-! ## Many bytes -/

theorem absorb_append (p q : List Byte) (s : State) : absorb (p ++ q) s = absorb q (absorb p s) := by
  induction p generalizing s with
  | nil => rfl
  | cons b p ih => exact ih _

@[simp] theorem absorb_variant (p : List Byte) (s : State) : (absorb p s).variant = s.variant := by
  induction p generalizing s with
  | nil => rfl
  | cons b p ih => simp [absorb, ih]

@[simp] theorem absorb_phase (p : List Byte) (s : State) : (absorb p s).phase = s.phase := by
  induction p generalizing s with
  | nil => rfl
  | cons b p ih => simp [absorb, ih]

@[simp] theorem absorb_err (p : List Byte) (s : State) : (absorb p s).err = s.err := by
  induction p generalizing s with
  | nil => rfl
  | cons b p ih => simp [absorb, ih]

@[simp] theorem absorb_commands (p : List Byte) (s : State) : (absorb p s).commands = s.commands := by
  induction p generalizing s with
  | nil => rfl
  | cons b p ih => simp [absorb, ih]

@[simp] theorem absorb_responses (p : List Byte) (s : State) : (absorb p s).responses = s.responses := by
  induction p generalizing s with
  | nil => rfl
  | cons b p ih => simp [absorb, ih]

@[simp] theorem absorb_resetInput (p : List Byte) (s : State) : (absorb p s).resetInput = s.resetInput := by
  induction p generalizing s with
  | nil => rfl
  | cons b p ih => simp [absorb, ih]

/-- The counter grows by the payload's length (rule R23). -/
theorem absorb_byteCounter (p : List Byte) (s : State) :
    (absorb p s).byteCounter.toNat =
      (s.byteCounter.toNat + p.length) % 2 ^ lengthFieldBits (familyOf s.variant) := by
  induction p generalizing s with
  | nil => exact (Nat.mod_eq_of_lt s.byteCounter.isLt).symm
  | cons b p ih =>
    rw [absorb, ih, absorbByte_byteCounter, absorbByte_variant, Nat.mod_add_mod, List.length_cons,
      Nat.add_assoc, Nat.add_comm 1]

theorem absorb_bufLen (p : List Byte) (s : State) (h : s.bufLen.toNat < blockSize (familyOf s.variant)) :
    (absorb p s).bufLen.toNat = (s.bufLen.toNat + p.length) % blockSize (familyOf s.variant) := by
  have hpos : 0 < blockSize (familyOf s.variant) := by omega
  induction p generalizing s with
  | nil => simp [absorb, Nat.mod_eq_of_lt h]
  | cons b p ih =>
    have hb := absorbByte_bufLen s b h
    have h2 : (absorbByte s b).bufLen.toNat < blockSize (familyOf (absorbByte s b).variant) := by
      rw [hb, absorbByte_variant]; exact Nat.mod_lt _ hpos
    simp only [absorb]
    rw [ih _ h2 (by simpa using hpos), hb, absorbByte_variant, Nat.mod_add_mod, List.length_cons]
    congr 1
    omega

/-- Absorbing does not look at the phase, the streams, the reset input or `ERR`. -/
theorem absorbByte_outer (s : State) (b : Byte) (ph : Phase) (e : Option Cause) (cs rs : List Word32)
    (ri : Bool) :
    absorbByte { s with phase := ph, err := e, commands := cs, responses := rs, resetInput := ri } b =
      { absorbByte s b with
        phase := ph, err := e, commands := cs, responses := rs, resetInput := ri } := by
  obtain ⟨h, hs⟩ | ⟨h, hs⟩ := absorbByte_cases s b <;>
    obtain ⟨h', hs'⟩ | ⟨h', hs'⟩ := absorbByte_cases
      { s with phase := ph, err := e, commands := cs, responses := rs, resetInput := ri } b <;>
    first
    | exact absurd h' h
    | exact absurd h h'
    | (rw [hs, hs'] <;> rfl)

theorem absorb_outer (p : List Byte) (s : State) (ph : Phase) (e : Option Cause) (cs rs : List Word32)
    (ri : Bool) :
    absorb p { s with phase := ph, err := e, commands := cs, responses := rs, resetInput := ri } =
      { absorb p s with
        phase := ph, err := e, commands := cs, responses := rs, resetInput := ri } := by
  induction p generalizing s with
  | nil => rfl
  | cons b p ih => simp only [absorb, absorbByte_outer, ih]

/-! ## Ready -/

theorem maxByteCount_lt (f : Family) : maxByteCount f < 2 ^ lengthFieldBits f := by
  cases f <;> simp [maxByteCount, lengthFieldBits, lengthFieldBytes]

theorem blockSize_pos (f : Family) : 0 < blockSize f := by cases f <;> decide

theorem blockSize_le (f : Family) : blockSize f ≤ 128 := by cases f <;> decide

/-- While the count stays admissible the counter does not wrap: it grows by the payload's length. -/
theorem absorb_byteCounter_of_le (p : List Byte) (s : State)
    (hc : s.byteCounter.toNat + p.length ≤ maxByteCount (familyOf s.variant)) :
    (absorb p s).byteCounter.toNat = s.byteCounter.toNat + p.length := by
  have hmax := maxByteCount_lt (familyOf s.variant)
  rw [absorb_byteCounter, Nat.mod_eq_of_lt (by omega)]

/-- One byte keeps `Ready` while the count stays admissible. -/
theorem absorbByte_ready {s : State} (b : Byte) (h : Ready s)
    (hc : s.byteCounter.toNat + 1 ≤ maxByteCount (familyOf s.variant)) : Ready (absorbByte s b) := by
  obtain ⟨h1, h2, h3, h4⟩ := h
  have hpos := blockSize_pos (familyOf s.variant)
  have hcount : (absorbByte s b).byteCounter.toNat = s.byteCounter.toNat + 1 :=
    absorb_byteCounter_of_le [b] s hc
  have hlen := absorbByte_bufLen s b h1
  refine ⟨?_, ?_, ?_, ?_⟩
  · rw [hlen, absorbByte_variant]; exact Nat.mod_lt _ hpos
  · rw [hlen, hcount, absorbByte_variant, h2, Nat.mod_add_mod]
  · rw [hcount, absorbByte_variant]; exact hc
  · rw [hlen]
    obtain ⟨hne, hs⟩ | ⟨he, hs⟩ := absorbByte_cases s b
    · rw [hs, Nat.mod_eq_of_lt (by omega)]
      simp only
      rw [memoryWrite_append _ _ _ (fst_lt_of_map_eq_range h4), List.map_append, h4, List.range_succ]
      rfl
    · rw [hs, he, Nat.mod_self]; rfl

/-- Many bytes keep `Ready` while the count stays admissible (rule R28). -/
theorem absorb_ready (p : List Byte) {s : State} (h : Ready s)
    (hc : s.byteCounter.toNat + p.length ≤ maxByteCount (familyOf s.variant)) : Ready (absorb p s) := by
  induction p generalizing s with
  | nil => exact h
  | cons b p ih =>
    simp only [List.length_cons] at hc
    have hb : (absorbByte s b).byteCounter.toNat = s.byteCounter.toNat + 1 :=
      absorb_byteCounter_of_le [b] s (by simp only [List.length_singleton]; omega)
    refine ih (absorbByte_ready b h (by omega)) ?_
    rw [hb, absorbByte_variant]
    omega

/-- Absorbing keeps the buffer's canonical form, whatever the state. -/
theorem absorb_wf (p : List Byte) {s : State} (h : Memory.wf s.buffer) : Memory.wf (absorb p s).buffer := by
  induction p generalizing s with
  | nil => exact h
  | cons b p ih =>
    apply ih
    obtain ⟨-, hs⟩ | ⟨-, hs⟩ := absorbByte_cases s b
    · rw [hs]; exact memoryWrite_wf b h s.bufLen.isLt
    · rw [hs]; exact Memory_wf_nil

/-! ## The message held -/

/-- A fresh context holds the empty message (rule R181). -/
theorem initContext_holds (v : Variant) (s : State) (h : s.phase = .active) :
    Holds v [] (initContext v s) := by
  refine ⟨by simpa using h, rfl, rfl, rfl, Nat.zero_le _, ?_, ?_, ?_⟩
  · simp
  · simp [bufferCells]
  · simp [compressBlocks]

/-- A state that holds a message is `Ready`. -/
theorem Holds.ready {v : Variant} {m : List Byte} {s : State} (h : Holds v m s) : Ready s := by
  obtain ⟨-, rfl, -, hc, hle, hl, hb, -⟩ := h
  have hpos := blockSize_pos (familyOf s.variant)
  refine ⟨?_, ?_, ?_, ?_⟩
  · rw [hl]; exact Nat.mod_lt _ hpos
  · rw [hl, hc]
  · rw [hc]; exact hle
  · rw [hb, bufferCells_fst, hl, List.length_drop, Nat.mod_eq_sub_div_mul]

/-- What is buffered is the end of the message, and it is what `MemRead` reads. -/
theorem Holds.memRead {v : Variant} {m : List Byte} {s : State} (h : Holds v m s) :
    memRead s 0 s.bufLen.toNat =
      m.drop (m.length / blockSize (familyOf v) * blockSize (familyOf v)) := by
  obtain ⟨-, rfl, -, hc, hle, hl, hb, -⟩ := h
  have := memRead_bufferCells s _ hb
  rwa [List.length_drop, ← Nat.mod_eq_sub_div_mul, ← hl] at this

/-- One more byte: the context holds the message with that byte after it. -/
theorem absorbByte_holds {v : Variant} {m : List Byte} {s : State} (b : Byte) (h : Holds v m s)
    (hc : m.length + 1 ≤ maxByteCount (familyOf v)) : Holds v (m ++ [b]) (absorbByte s b) := by
  have hready := absorbByte_ready b h.ready (by rw [h.2.2.2.1, h.2.1]; exact hc)
  have hbl := absorbByte_bufLen s b h.ready.1
  obtain ⟨hp, hv, he, hcount, hle, hlen, hbuf, hchain⟩ := h
  subst hv
  have hpos := blockSize_pos (familyOf s.variant)
  have hdm := Nat.div_add_mod m.length (blockSize (familyOf s.variant))
  rw [Nat.mul_comm] at hdm
  have hdl : m.length / blockSize (familyOf s.variant) * blockSize (familyOf s.variant) ≤ m.length := by omega
  have hbl2 : (absorbByte s b).bufLen.toNat = (m ++ [b]).length % blockSize (familyOf s.variant) := by
    rw [hbl, hlen, Nat.mod_add_mod]; simp
  have hcount2 : (absorbByte s b).byteCounter.toNat = (m ++ [b]).length := by
    rw [List.length_append, ← hcount]
    exact absorb_byteCounter_of_le [b] s (by rw [hcount]; exact hc)
  refine ⟨by simpa using hp, by simp, by simpa using he, hcount2, by simpa using hc, hbl2, ?_, ?_⟩
  all_goals
    obtain ⟨hne, hs⟩ | ⟨heq, hs⟩ := absorbByte_cases s b
  -- the buffer, no block completed
  · rw [hs]
    simp only
    have hdiv : (m ++ [b]).length / blockSize (familyOf s.variant) =
        m.length / blockSize (familyOf s.variant) := by
      rw [List.length_append, List.length_singleton, Nat.succ_div, if_neg, Nat.add_zero]
      rw [Nat.dvd_iff_mod_eq_zero, ← Nat.mod_add_mod, ← hlen, Nat.mod_eq_of_lt (by
        have := Nat.mod_lt m.length hpos; omega)]
      omega
    rw [hdiv, List.drop_append_of_le_length hdl, ← memoryWrite_bufferCells, ← hbuf, List.length_drop,
      ← Nat.mod_eq_sub_div_mul, ← hlen]
  -- the buffer, a block completed
  · rw [hs]
    have hdvd : blockSize (familyOf s.variant) ∣ (m ++ [b]).length := by
      rw [Nat.dvd_iff_mod_eq_zero, ← hbl2, hbl, heq, Nat.mod_self]
    rw [Nat.div_mul_cancel hdvd, List.drop_length]
    rfl
  -- the chaining value, no block completed
  · have hdiv : (m ++ [b]).length / blockSize (familyOf s.variant) =
        m.length / blockSize (familyOf s.variant) := by
      rw [List.length_append, List.length_singleton, Nat.succ_div, if_neg, Nat.add_zero]
      rw [Nat.dvd_iff_mod_eq_zero, ← Nat.mod_add_mod, ← hlen, Nat.mod_eq_of_lt (by
        have := Nat.mod_lt m.length hpos; omega)]
      omega
    rw [hdiv, compressBlocks_append _ _ _ _ _ hdl, ← hchain, hs]
    rfl
  -- the chaining value, a block completed
  · have hdvd : blockSize (familyOf s.variant) ∣ m.length + 1 := by
      rw [Nat.dvd_iff_mod_eq_zero, ← Nat.mod_add_mod, ← hlen, heq, Nat.mod_self]
    have hdiv : (m ++ [b]).length / blockSize (familyOf s.variant) =
        m.length / blockSize (familyOf s.variant) + 1 := by
      rw [List.length_append, List.length_singleton, Nat.succ_div, if_pos hdvd]
    have hblock : memRead { s with
          buffer := memoryWrite s.buffer s.bufLen.toNat b
          byteCounter := s.byteCounter + 1 } 0 (blockSize (familyOf s.variant)) =
        m.drop (m.length / blockSize (familyOf s.variant) * blockSize (familyOf s.variant)) ++ [b] := by
      have hl : (m.drop (m.length / blockSize (familyOf s.variant) * blockSize (familyOf s.variant))).length =
          s.bufLen.toNat := by
        rw [List.length_drop, ← Nat.mod_eq_sub_div_mul, hlen]
      have hcells : memoryWrite s.buffer s.bufLen.toNat b = bufferCells
          (m.drop (m.length / blockSize (familyOf s.variant) * blockSize (familyOf s.variant)) ++ [b]) := by
        rw [← memoryWrite_bufferCells, ← hbuf, hl]
      have := memRead_bufferCells { s with
          buffer := memoryWrite s.buffer s.bufLen.toNat b
          byteCounter := s.byteCounter + 1 } _ hcells
      rwa [List.length_append, hl, List.length_singleton, heq] at this
    rw [hdiv, compressBlocks_add, compressBlocks_append _ _ _ _ _ hdl, ← hchain,
      List.drop_append_of_le_length hdl, hs]
    have hread := readChain_compressBuffer { s with
          buffer := memoryWrite s.buffer s.bufLen.toNat b
          byteCounter := s.byteCounter + 1 }
    simp only at hread
    rw [hread, hblock]
    simp only [compressBlocks]
    rw [List.take_of_length_le]
    · rfl
    · rw [List.length_append, List.length_drop, ← Nat.mod_eq_sub_div_mul, ← hlen, List.length_singleton, heq]

/-- Many more bytes: absorbing appends to the message held, however it was cut (rule R28, rule R185). -/
theorem absorb_holds {v : Variant} {m : List Byte} (p : List Byte) {s : State} (h : Holds v m s)
    (hc : m.length + p.length ≤ maxByteCount (familyOf v)) : Holds v (m ++ p) (absorb p s) := by
  induction p generalizing m s with
  | nil => simpa [absorb] using h
  | cons b p ih =>
    simp only [List.length_cons] at hc
    have := ih (absorbByte_holds b h (by omega)) (by simp; omega)
    simpa [absorb] using this

/-! ## The digest -/

/-- What `finalize()` returns for a context that holds a message is the message's digest: the blocks
already compressed and the padded tail are together the padded message (rule R210). -/
theorem Holds.finalDigest {v : Variant} {m : List Byte} {s : State} (h : Holds v m s) :
    finalDigest s = messageDigest v m := by
  have hread := h.memRead
  obtain ⟨-, rfl, -, hcount, -, hlen, -, hchain⟩ := h
  have hpos := blockSize_pos (familyOf s.variant)
  have hdm := Nat.div_add_mod m.length (blockSize (familyOf s.variant))
  rw [Nat.mul_comm] at hdm
  have hdl : m.length / blockSize (familyOf s.variant) * blockSize (familyOf s.variant) ≤ m.length := by omega
  have htl : (m.drop (m.length / blockSize (familyOf s.variant) * blockSize (familyOf s.variant))).length =
      m.length % blockSize (familyOf s.variant) := by
    rw [List.length_drop, ← Nat.mod_eq_sub_div_mul]
  unfold Machine.finalDigest messageDigest finalChain paddedTail paddedMessage
  simp only [hread, hcount, hchain, htl]
  congr 1
  rw [List.length_append, htl, List.length_append]
  set pad := padding (familyOf s.variant) (m.length % blockSize (familyOf s.variant)) m.length with hpad
  have hsplit : (m.length + pad.length) / blockSize (familyOf s.variant) =
      m.length / blockSize (familyOf s.variant) +
        (m.length % blockSize (familyOf s.variant) + pad.length) / blockSize (familyOf s.variant) := by
    conv_lhs => rw [← hdm, Nat.add_assoc, Nat.add_comm, Nat.add_mul_div_right _ _ hpos]
    omega
  rw [hsplit, compressBlocks_add, compressBlocks_append _ _ _ _ _ hdl, List.drop_append_of_le_length hdl]

end Sys2Proof.Machine
end

