-- ==== Sys2Proof/Laws/Encoding.lean ====
section
/-! SUPPORT. The laws of frames, header fields and byte packing that the claims about the encoding rest on. -/

namespace Sys2Proof

/-! ## Header fields -/

/-- A concatenation's field, bit by bit. -/
theorem headerWord_fields (opcode : BitVec 8) (v : BitVec 3) (len : BitVec 16) :
    headerOpcode (headerWord opcode v len) = opcode ∧ headerRsv (headerWord opcode v len) = 0 ∧
    headerV (headerWord opcode v len) = v ∧ headerLen (headerWord opcode v len) = len := by
  refine ⟨?_, ?_, ?_, ?_⟩ <;>
  · apply BitVec.eq_of_getLsbD_eq
    intro i hi
    simp only [headerOpcode, headerRsv, headerV, headerLen, headerWord, BitVec.getLsbD_extractLsb',
      BitVec.getLsbD_append]
    interval_cases i <;> simp

@[simp] theorem headerOpcode_headerWord (opcode : BitVec 8) (v : BitVec 3) (len : BitVec 16) :
    headerOpcode (headerWord opcode v len) = opcode := (headerWord_fields opcode v len).1

@[simp] theorem headerRsv_headerWord (opcode : BitVec 8) (v : BitVec 3) (len : BitVec 16) :
    headerRsv (headerWord opcode v len) = 0 := (headerWord_fields opcode v len).2.1

@[simp] theorem headerV_headerWord (opcode : BitVec 8) (v : BitVec 3) (len : BitVec 16) :
    headerV (headerWord opcode v len) = v := (headerWord_fields opcode v len).2.2.1

@[simp] theorem headerLen_headerWord (opcode : BitVec 8) (v : BitVec 3) (len : BitVec 16) :
    headerLen (headerWord opcode v len) = len := (headerWord_fields opcode v len).2.2.2

/-! ## Variant ids -/

@[simp] theorem variantOfId_variantId (v : Variant) : variantOfId (variantId v) = some v := by
  cases v <;> rfl

/-- An id names a variant exactly when it is at most 5, and then it is that variant's id (rule R111). -/
theorem variantOfId_eq_some {x : BitVec 3} {v : Variant} : variantOfId x = some v ↔ variantId v = x := by
  revert x v; intro x v; cases v <;> revert x <;> decide

theorem variantOfId_isSome (x : BitVec 3) : (variantOfId x).isSome ↔ x.toNat ≤ 5 := by
  revert x; decide

/-! ## Packing -/

theorem bytesOfWord_wordOfBytes (b0 b1 b2 b3 : Byte) :
    bytesOfWord (wordOfBytes b0 b1 b2 b3) = [b0, b1, b2, b3] := by
  simp only [bytesOfWord, wordOfBytes, List.cons.injEq, and_true]
  refine ⟨?_, ?_, ?_, ?_⟩ <;>
  · apply BitVec.eq_of_getLsbD_eq
    intro i hi
    simp only [BitVec.getLsbD_extractLsb', BitVec.getLsbD_append]
    interval_cases i <;> simp

/-- Packing four more bytes. -/
theorem packBytes_length (p : List Byte) : (packBytes p).length = (p.length + 3) / 4 := by
  induction p using packBytes.induct with
  | case5 b0 b1 b2 b3 rest ih => simp [packBytes, ih]; omega
  | _ => simp [packBytes]

/-- What was packed is unpacked: no byte is dropped and no padding byte is added (rule R83). -/
theorem unpackBytes_packBytes (p : List Byte) : unpackBytes p.length (packBytes p) = p := by
  unfold unpackBytes
  induction p using packBytes.induct with
  | case1 => simp [packBytes]
  | case2 b0 => simp [packBytes, bytesOfWord_wordOfBytes]
  | case3 b0 b1 => simp [packBytes, bytesOfWord_wordOfBytes]
  | case4 b0 b1 b2 => simp [packBytes, bytesOfWord_wordOfBytes]
  | case5 b0 b1 b2 b3 rest ih => simp [packBytes, bytesOfWord_wordOfBytes, ih]

theorem bytesOfWord_length (x : Word32) : (bytesOfWord x).length = 4 := rfl

/-- Byte `k` of the payload is in word `k / 4` (rule R83). -/
theorem flatMap_bytesOfWord_getElem? (ws : List Word32) (k : Nat) :
    (ws.flatMap bytesOfWord)[k]? = ws[k / 4]?.map fun x => x.extractLsb' (24 - 8 * (k % 4)) 8 := by
  induction ws generalizing k with
  | nil => simp
  | cons x ws ih =>
    rw [List.flatMap_cons]
    by_cases h : k < 4
    · rw [List.getElem?_append_left (by simpa [bytesOfWord] using h)]
      interval_cases k <;> simp [bytesOfWord]
    · rw [List.getElem?_append_right (by simp [bytesOfWord]; omega), bytesOfWord_length, ih]
      obtain ⟨j, rfl⟩ : ∃ j, k = j + 4 := ⟨k - 4, by omega⟩
      simp [show (j + 4) / 4 = j / 4 + 1 by omega]

theorem flatMap_bytesOfWord_length (ws : List Word32) : (ws.flatMap bytesOfWord).length = 4 * ws.length := by
  induction ws with
  | nil => rfl
  | cons x ws ih => simp [bytesOfWord, ih]; omega

/-! ## What the decoder reads -/

/-- Everything the decoder can answer, by header fields (rule R85): the command `i` is read exactly when
`rsv` is 0 and the fields are those of `i`. -/
theorem decodeFrame_eq_some {header : Word32} {payload : List Word32} {i : Instr} :
    decodeFrame header payload = some i ↔ headerRsv header = 0 ∧
      match i with
      | .init v => headerOpcode header = 0x01 ∧ headerV header = variantId v ∧ headerLen header = 0
      | .update p => headerOpcode header = 0x02 ∧ headerV header = 0 ∧
          p = unpackBytes (headerLen header).toNat payload
      | .finalize => headerOpcode header = 0x03 ∧ headerV header = 0 ∧ headerLen header = 0
      | .reset => headerOpcode header = 0x04 ∧ headerV header = 0 ∧ headerLen header = 0
      | .digest v p => headerOpcode header = 0x05 ∧ headerV header = variantId v ∧
          p = unpackBytes (headerLen header).toNat payload
      | .status => headerOpcode header = 0x06 ∧ headerV header = 0 ∧ headerLen header = 0 := by
  unfold decodeFrame
  dsimp only
  generalize headerRsv header = r
  generalize headerOpcode header = o
  generalize headerV header = v
  generalize (headerLen header) = l
  by_cases hr : r = 0
  · subst hr
    have hopt : ∀ {w : Variant}, variantOfId v = some w ↔ v = variantId w := fun {w} => by
      rw [variantOfId_eq_some, eq_comm]
    have hcase : ∀ {P : Prop} [Decidable P] {j : Instr}, ((if P then some j else none) = some i) ↔ P ∧ j = i :=
      fun {P} _ {j} => by by_cases h : P <;> simp [h]
    by_cases h1 : o = 0x01
    · subst h1
      by_cases hl : l = 0
      · subst hl
        cases i <;> simp [Option.map_eq_some_iff, hopt]
      · have hl' : ¬ l = 0#16 := hl
        cases i <;> simp [hl']
    by_cases h2 : o = 0x02
    · subst h2
      cases i with
      | update p => simp [eq_comm (b := p)]
      | _ => simp [hcase]
    by_cases h3 : o = 0x03
    · subst h3
      cases i <;> simp [hcase]
    by_cases h4 : o = 0x04
    · subst h4
      cases i <;> simp [hcase]
    by_cases h5 : o = 0x05
    · subst h5
      cases i with
      | digest u p => simp [Option.map_eq_some_iff, hopt, eq_comm (b := p)]
      | _ => simp [Option.map_eq_some_iff]
    by_cases h6 : o = 0x06
    · subst h6
      cases i <;> simp [hcase]
    · rw [if_neg (by simp), if_neg h1, if_neg h2, if_neg h3, if_neg h4, if_neg h5, if_neg h6]
      cases i <;> simp_all
  · rw [if_pos hr]
    exact ⟨fun h => by simp at h, fun h => absurd h.1 hr⟩

/-! ## Frames -/

/-- The first `n` words and the rest, exactly when there are `n` words. -/
theorem splitWords_eq (n : Nat) (ws : List Word32) :
    splitWords n ws = if n ≤ ws.length then some (ws.take n, ws.drop n) else none := by
  unfold splitWords
  split
  · simp
  · rename_i k
    split
    · rename_i h
      have := List.drop_eq_nil_iff.mp h
      rw [if_neg (by omega)]
    · rename_i x rest h
      have hlt : k < ws.length := by
        by_contra hc
        rw [List.drop_eq_nil_iff.mpr (by omega)] at h
        cases h
      have h2 : ws.drop (k + 1) = rest := by rw [← List.drop_drop, h]; simp
      rw [if_pos (by omega), h2]

/-- A frame at the front of a stream is taken whole: header, payload, the words after it. -/
theorem takeFrame_cons (header : Word32) (payload rest : List Word32)
    (h : payload.length = payloadWordCount header) :
    takeFrame (header :: (payload ++ rest)) = some (header, payload, rest) := by
  simp [takeFrame, splitWords_eq, ← h]

/-- What taking a frame gives is the stream cut in three. -/
theorem takeFrame_eq_some {ws : List Word32} {header : Word32} {payload rest : List Word32}
    (h : takeFrame ws = some (header, payload, rest)) :
    ws = header :: (payload ++ rest) ∧ payload.length = payloadWordCount header := by
  cases ws with
  | nil => cases h
  | cons x ws =>
    simp only [takeFrame, splitWords_eq] at h
    split at h
    · simp only [Option.map_some, Option.some.injEq, Prod.mk.injEq] at h
      obtain ⟨rfl, rfl, rfl⟩ := h
      exact ⟨by simp, by simp; omega⟩
    · cases h

/-- The payload word count of an encoded header whose `len` is a payload's length. -/
theorem payloadWordCount_headerWord (opcode : BitVec 8) (v : BitVec 3) (n : Nat) (h : n ≤ Config.maxLen) :
    payloadWordCount (headerWord opcode v (BitVec.ofNat 16 n)) = (n + 3) / 4 := by
  simp only [payloadWordCount, headerLen_headerWord, BitVec.toNat_ofNat]
  rw [Nat.mod_eq_of_lt (by unfold Config.maxLen at h; omega)]

end Sys2Proof
end

