-- ==== Sys2Proof/Laws/PerInstr.lean ====
section
/-! SUPPORT. Per-instruction families. `EncodeFramed`: the encoder writes one whole frame, whose header's
`len` asks for exactly the payload words that follow (rule R80). -/

namespace Sys2Proof.Laws.EncodeFramed

/-- The encoded words are a header and `ceil(len / 4)` payload words that carry the command's payload. -/
def Statement (i : Instr) : Prop :=
  i.wellFormed = true →
    ∃ header, encode i = header :: packBytes i.payload ∧
      (headerLen header).toNat = i.payload.length ∧
      (packBytes i.payload).length = payloadWordCount header

theorem init (v : Variant) : Statement (.init v) := fun _ => ⟨_, rfl, by simp [Instr.payload], by
  simp [payloadWordCount, Instr.payload, packBytes]⟩

theorem len_of_payload (opcode : BitVec 8) (v : BitVec 3) (p : List Byte) (h : p.length ≤ Config.maxLen) :
    (headerLen (headerWord opcode v (BitVec.ofNat 16 p.length))).toNat = p.length ∧
      (packBytes p).length = payloadWordCount (headerWord opcode v (BitVec.ofNat 16 p.length)) := by
  refine ⟨?_, by rw [packBytes_length, payloadWordCount_headerWord _ _ _ h]⟩
  rw [headerLen_headerWord, BitVec.toNat_ofNat, Nat.mod_eq_of_lt (by unfold Config.maxLen at h; omega)]

theorem update (p : List Byte) : Statement (.update p) := fun h =>
  ⟨_, rfl, len_of_payload _ _ p (of_decide_eq_true h)⟩

theorem finalize : Statement .finalize := fun _ => ⟨_, rfl, by simp [Instr.payload], by
  simp [payloadWordCount, Instr.payload, packBytes]⟩

theorem reset : Statement .reset := fun _ => ⟨_, rfl, by simp [Instr.payload], by
  simp [payloadWordCount, Instr.payload, packBytes]⟩

theorem digest (v : Variant) (p : List Byte) : Statement (.digest v p) := fun h =>
  ⟨_, rfl, len_of_payload _ _ p (of_decide_eq_true h)⟩

theorem status : Statement .status := fun _ => ⟨_, rfl, by simp [Instr.payload], by
  simp [payloadWordCount, Instr.payload, packBytes]⟩

end Sys2Proof.Laws.EncodeFramed
end

