-- ==== Sys2Proof/Laws/Step.lean ====
section
/-! SUPPORT. Spec lemmas of the six meanings, of `exec` and of `step`: everything each of them can do, said
once. Invariants are derived from these and do not unfold the meanings again. -/

namespace Sys2Proof.Machine

/-- UPDATE absorbs, or raises USAGE, or raises OVERFLOW, each in the case the rules give (rule R180). -/
theorem execUpdate_cases (p : List Byte) (s : State) :
    (s.phase = .active ∧ s.byteCounter.toNat + p.length ≤ maxByteCount (familyOf s.variant) ∧
      execUpdate p s = .next (respond none [] (absorb p s))) ∨
    (s.phase = .active ∧ maxByteCount (familyOf s.variant) < s.byteCounter.toNat + p.length ∧
      execUpdate p s = .next (raise .overflow s)) ∨
    (s.phase ≠ .active ∧ execUpdate p s = .next (raise .usage s)) := by
  unfold execUpdate wouldOverflow
  cases hp : s.phase <;> simp only [activeOnly, if_true, if_false, Bool.false_eq_true]
  case active =>
    by_cases h : maxByteCount (familyOf s.variant) < s.byteCounter.toNat + p.length
    · exact .inr (.inl ⟨trivial, h, by simp [h]⟩)
    · exact .inl ⟨trivial, by omega, by simp [h]⟩
  all_goals exact .inr (.inr ⟨by simp, by simp⟩)

/-- FINALIZE finishes in phase ACTIVE and raises USAGE elsewhere. -/
theorem execFinalize_cases (s : State) :
    (s.phase = .active ∧ execFinalize s = .next (finishWithDigest s)) ∨
    (s.phase ≠ .active ∧ execFinalize s = .next (raise .usage s)) := by
  unfold execFinalize
  cases hp : s.phase <;> simp [activeOnly]

/-- RESET initialises in the phases ACTIVE and FINALIZED and raises USAGE elsewhere. -/
theorem execReset_cases (s : State) :
    ((s.phase = .active ∨ s.phase = .finalized) ∧
      execReset s = .next (respond none [] { initContext s.variant s with phase := .active })) ∨
    ((s.phase = .empty ∨ s.phase = .error) ∧ execReset s = .next (raise .usage s)) := by
  unfold execReset
  cases hp : s.phase <;> simp [activeOrFinalized]

/-- Every command's next state is one of these seven, each with the condition under which it is taken. -/
theorem exec_cases (i : Instr) (s : State) :
    (∃ v, i = .init v ∧ exec i s = .next (respond none [] { initContext v s with phase := .active })) ∨
    (∃ p, i = .update p ∧ s.phase = .active ∧
      s.byteCounter.toNat + p.length ≤ maxByteCount (familyOf s.variant) ∧
      exec i s = .next (respond none [] (absorb p s))) ∨
    (i = .finalize ∧ s.phase = .active ∧ exec i s = .next (finishWithDigest s)) ∨
    (i = .reset ∧ (s.phase = .active ∨ s.phase = .finalized) ∧
      exec i s = .next (respond none [] { initContext s.variant s with phase := .active })) ∨
    (∃ v p, i = .digest v p ∧ exec i s = .next (finishWithDigest (absorb p (initContext v s)))) ∨
    (i = .status ∧ exec i s = .next (respond none [] s)) ∨
    (∃ x, exec i s = .next (raise x s) ∧
      ((x = .usage ∧ (((∃ p, i = .update p) ∨ i = .finalize) ∧ s.phase ≠ .active ∨
          i = .reset ∧ (s.phase = .empty ∨ s.phase = .error))) ∨
        (x = .overflow ∧ s.phase = .active ∧ ∃ p, i = .update p ∧
          maxByteCount (familyOf s.variant) < s.byteCounter.toNat + p.length))) := by
  cases i with
  | init v => exact .inl ⟨v, rfl, rfl⟩
  | update p =>
    obtain ⟨hp, hc, h⟩ | ⟨hp, hc, h⟩ | ⟨hp, h⟩ := execUpdate_cases p s
    · exact .inr (.inl ⟨p, rfl, hp, hc, h⟩)
    · exact .inr (.inr (.inr (.inr (.inr (.inr ⟨.overflow, h, .inr ⟨rfl, hp, p, rfl, hc⟩⟩)))))
    · exact .inr (.inr (.inr (.inr (.inr (.inr ⟨.usage, h, .inl ⟨rfl, .inl ⟨.inl ⟨p, rfl⟩, hp⟩⟩⟩)))))
  | finalize =>
    obtain ⟨hp, h⟩ | ⟨hp, h⟩ := execFinalize_cases s
    · exact .inr (.inr (.inl ⟨rfl, hp, h⟩))
    · exact .inr (.inr (.inr (.inr (.inr (.inr ⟨.usage, h, .inl ⟨rfl, .inl ⟨.inr rfl, hp⟩⟩⟩)))))
  | reset =>
    obtain ⟨hp, h⟩ | ⟨hp, h⟩ := execReset_cases s
    · exact .inr (.inr (.inr (.inl ⟨rfl, hp, h⟩)))
    · exact .inr (.inr (.inr (.inr (.inr (.inr ⟨.usage, h, .inl ⟨rfl, .inr ⟨rfl, hp⟩⟩⟩)))))
  | digest v p => exact .inr (.inr (.inr (.inr (.inl ⟨v, p, rfl, rfl⟩))))
  | status => exact .inr (.inr (.inr (.inr (.inr (.inl ⟨rfl, rfl⟩)))))

/-- Everything a step can do: a hardware reset, a wait, an illegal frame, or a command. -/
theorem step_cases (s : State) :
    (s.resetInput = true ∧ step s = .next (hardwareReset s)) ∨
    (s.resetInput = false ∧ takeFrame s.commands = none ∧ step s = .next s) ∨
    (∃ header payload rest, s.resetInput = false ∧ s.commands = header :: (payload ++ rest) ∧
      payload.length = payloadWordCount header ∧
      ((decodeFrame header payload = none ∧
          step s = .next (raise .illegal { s with commands := rest })) ∨
        (∃ i, decodeFrame header payload = some i ∧ step s = exec i { s with commands := rest }))) := by
  unfold step
  cases hr : s.resetInput with
  | true => exact .inl ⟨rfl, by simp⟩
  | false =>
    right
    simp only [Bool.false_eq_true, if_false, decodeStream]
    cases ht : takeFrame s.commands with
    | none => exact .inl ⟨trivial, rfl, rfl⟩
    | some fr =>
      obtain ⟨header, payload, rest⟩ := fr
      obtain ⟨hc, hl⟩ := takeFrame_eq_some ht
      refine .inr ⟨header, payload, rest, trivial, hc, hl, ?_⟩
      cases hd : decodeFrame header payload with
      | none => exact .inl ⟨rfl, by simp [hd]⟩
      | some i => exact .inr ⟨i, rfl, by simp [hd]⟩

/-- With a frame at the front of the stream and no reset, the step is the frame's. -/
theorem step_of_frame {s : State} {header : Word32} {payload rest : List Word32}
    (hr : s.resetInput = false) (hc : s.commands = header :: (payload ++ rest))
    (hl : payload.length = payloadWordCount header) :
    step s = match decodeFrame header payload with
      | none => .next (raise .illegal { s with commands := rest })
      | some i => exec i { s with commands := rest } := by
  unfold step
  simp only [hr, Bool.false_eq_true, if_false, decodeStream, hc, takeFrame_cons _ _ _ hl, Option.map_some]
  cases decodeFrame header payload <;> rfl

end Sys2Proof.Machine
end

