-- ==== Sys2Proof/Tests/Slice0.lean ====
section
/-! SUPPORT. The model's own tests. Every expected value is one of the spec's: its worked examples, its
tables of encodings, or its test vectors V… and programs P… (95_test_vectors.md). The last section gives,
for each statement with hypotheses, a concrete state and operands that meet all of them together. -/

namespace Sys2Proof.Tests

open Sys2Proof Sys2Proof.Machine

set_option Elab.async false

/-! ## Helpers -/

/-- The launch state in a phase, with a variant and a recorded cause. -/
def idle (ph : Phase) (v : Variant) (cause : Option Cause) : State :=
  { State.reset with phase := ph, variant := v, byteCounter := 0, err := cause }

/-- A computation in progress: the initial chaining value, a byte count, and the buffered bytes. -/
def active (v : Variant) (count : Nat) (bytes : List Byte) : State :=
  { initContext v (idle .active v none) with
    byteCounter := BitVec.ofNat _ count
    bufLen := BitVec.ofNat 7 bytes.length
    buffer := bufferCells bytes }

/-- A computation in progress that holds "abc". -/
def holdsAbc (v : Variant) : State := active v 3 [0x61, 0x62, 0x63]

/-- A state with stream words to consume. -/
def sent (ws : List Word32) (s : State) : State := { s with commands := ws }

/-- The words that a step's next state adds to an empty response stream. -/
def answer : Host.Outcome State Fault Refusal → Option (List Word32)
  | .next t => some t.responses
  | .fault _ => none
  | .refused _ => none

/-- Something read from a step's next state. -/
def after {α : Type} (read : State → α) : Host.Outcome State Fault Refusal → Option α
  | .next t => some (read t)
  | .fault _ => none
  | .refused _ => none

/-! ## WellFormed: the check and what it refuses -/

theorem test_wellFormed_refuses_long_update :
    (Instr.update (List.replicate 65536 0x61)).wellFormed = false := by
  simp only [Instr.wellFormed, List.length_replicate]; decide

theorem test_wellFormed_refuses_long_digest :
    (Instr.digest .sha256 (List.replicate 65536 0x61)).wellFormed = false := by
  simp only [Instr.wellFormed, List.length_replicate]; decide

theorem test_wellFormed_admits_longest_update :
    (Instr.update (List.replicate 65535 0x61)).wellFormed = true := by
  simp only [Instr.wellFormed, List.length_replicate]; decide

/-! ## Decode: words of table V50 written out bit by bit in the fields of rule R81 -/

theorem test_decode_init : decodeFrame 0b00000001_00000_101_0000000000000000 [] =
    some (.init .sha512_256) := by decide

/-- The last payload word's unused position is ignored (rule R83). -/
theorem test_decode_update :
    decodeFrame 0b00000010_00000_000_0000000000000011 [0b01100001_01100010_01100011_11111111] =
      some (.update [0x61, 0x62, 0x63]) := by decide

theorem test_decode_update_two_words :
    decodeFrame 0b00000010_00000_000_0000000000000101 [0x61626364, 0x65000000] =
      some (.update [0x61, 0x62, 0x63, 0x64, 0x65]) := by decide

theorem test_decode_finalize :
    decodeFrame 0b00000011_00000_000_0000000000000000 [] = some .finalize := by decide

theorem test_decode_reset :
    decodeFrame 0b00000100_00000_000_0000000000000000 [] = some .reset := by decide

theorem test_decode_digest :
    decodeFrame 0b00000101_00000_011_0000000000000010 [0x00ff0000] =
      some (.digest .sha512 [0x00, 0xff]) := by decide

theorem test_decode_status :
    decodeFrame 0b00000110_00000_000_0000000000000000 [] = some .status := by decide

/-- The illegal headers of V53, none of which decodes. -/
theorem test_decode_illegal : [(0x00000000 : Word32), 0x07000000, 0xff000000, 0xff000005, 0x01060000,
    0x01070000, 0x01010001, 0x01080000, 0x01800000, 0x02010003, 0x02080000, 0x03000004, 0x03010000,
    0x04000001, 0x04050000, 0x05060003, 0x05400000, 0x06000001, 0x06010000].all
      (fun x => (decodeFrame x [0, 0]).isNone) = true := by decide +kernel

/-- V50: `UPDATE "abcde"` as words. -/
theorem test_encode_update : encode (.update [0x61, 0x62, 0x63, 0x64, 0x65]) =
    [0x02000005, 0x61626364, 0x65000000] := by decide

/-- V50: `DIGEST SHA512, x"00ff"` as words. -/
theorem test_encode_digest : encode (.digest .sha512 [0x00, 0xff]) = [0x05030002, 0x00ff0000] := by decide

/-! ## The opcode table's words, and the step that runs them -/

theorem test_table_words :
    decodeTableWord 32 0x01050000 = some (.init .sha512_256) ∧
    decodeTableWord 32 0x02000005 = some (.update [0, 0, 0, 0, 0]) ∧
    decodeTableWord 32 0x03000000 = some .finalize ∧ decodeTableWord 32 0x04000000 = some .reset ∧
    decodeTableWord 32 0x05000000 = some (.digest .sha224 []) ∧
    decodeTableWord 32 0x06000000 = some .status ∧ decodeTableWord 32 0x07000000 = none := by
  decide +kernel

/-- The very next step after reset runs the word. -/
theorem test_fetch_word :
    after (fun t => (t.responses, t.commands)) (step (State.reset.withFetchWord 32 0x05010005)) =
      after (fun t => (t.responses, t.commands)) (exec (.digest .sha256 [0, 0, 0, 0, 0]) State.reset) := by
  decide +kernel

/-- The text of P1, comments included, and of rows of V50, V53 (rule R90). -/
theorem test_assembleText :
    assembleText ("INIT SHA256 ; 01010000\nUPDATE \"abc\"\nFINALIZE\n").toList =
      some [0x01010000, 0x02000003, 0x61626300, 0x03000000] ∧
    assembleText ("DIGEST SHA512, x\"00ff\"").toList = some [0x05030002, 0x00ff0000] ∧
    assembleText ("UPDATE \"ab\" ++ x\"63\"++rep(2, 0x64)\nINIT 6\n.word 0x09000000").toList =
      some [0x02000005, 0x61626364, 0x64000000, 0x01060000, 0x09000000] ∧
    assembleText ("INIT 8").toList = none ∧ assembleText ("UPDATE x\"0\"").toList = none := by
  decide +kernel

/-! ## Word arithmetic: V1 to V5 -/

theorem test_rotr : rotr (0x12345678 : BitVec 32) 8 = 0x78123456 ∧
    rotr (0x12345678 : BitVec 32) 40 = 0x78123456 ∧
    rotr (0x0123456789abcdef : BitVec 64) 61 = 0x091a2b3c4d5e6f78 := by decide

theorem test_shr_add : shr (0x80000000 : BitVec 32) 3 = 0x10000000 ∧
    shr (0xffffffffffffffff : BitVec 64) 64 = 0 ∧
    add (0x00000000ffffffff : BitVec 64) 1 = 0x0000000100000000 ∧
    add (0xffffffff : BitVec 32) 1 = 0 := by decide

theorem test_ch_maj :
    ch (0x510e527f : BitVec 32) 0x9b05688c 0x1f83d9ab = 0x1f85c98c ∧
    maj (0x6a09e667f3bcc908 : BitVec 64) 0xbb67ae8584caa73b 0x3c6ef372fe94f82b =
      0x3a6fe667f69ce92b := by decide

theorem test_sigma32 : bsig0 .w32 0x61626380 = (0x8dd59276 : BitVec 32) ∧
    bsig1 .w32 0x61626380 = (0xc0b865f2 : BitVec 32) ∧ ssig0 .w32 0x61626380 = (0x940e90ef : BitVec 32) ∧
    ssig1 .w32 0x61626380 = (0x7da86405 : BitVec 32) := by decide

theorem test_sigma64 : bsig0 .w64 0x510e527fade682d1 = (0xca4a40a4e604afc1 : BitVec 64) ∧
    bsig1 .w64 0x510e527fade682d1 = (0x9427e33bb5c9dbca : BitVec 64) ∧
    ssig0 .w64 0x510e527fade682d1 = (0x79743bc956056aef : BitVec 64) ∧
    ssig1 .w64 0x510e527fade682d1 = (0x596c80955bcc793d : BitVec 64) := by decide

/-! ## Tables: V10's checksums -/

theorem test_roundConstants :
    kTable32.foldl (· ^^^ ·) 0 = 0x95c49cf5 ∧ kTable32.foldl (· + ·) 0 = 0x941d1755 ∧
    kTable64.foldl (· ^^^ ·) 0 = 0xd4b82f4e9d920e3b ∧ kTable64.foldl (· + ·) 0 = 0x9bde35dffda2dffd := by
  decide +kernel

theorem test_initialValues :
    (initialValue .sha224).toList.foldl add 0 = 0xab0da9bc ∧
    (initialValue .sha256).toList.foldl add 0 = 0x6ea8df67 ∧
    (initialValue .sha384).toList.foldl add 0 = 0xed879bd5ab0da9bc ∧
    (initialValue .sha512).toList.foldl add 0 = 0x6ea8df6bbe1e6d33 ∧
    (initialValue .sha512_224).toList.foldl add 0 = 0x5db86523aaecff1c ∧
    (initialValue .sha512_256).toList.foldl add 0 = 0x0991d59e376d16bd := by
  decide +kernel

/-! ## Compression: V20, V22 -/

/-- V20: `W[63]`, the last schedule word of the padded block of "abc". -/
theorem test_schedule : (schedule .w32
    ([0x61, 0x62, 0x63, 0x80] ++ List.replicate 59 0x00 ++ [0x18])).getD 63 0 =
      (0x12b1edeb : BitVec 32) := by decide +kernel

/-- V20: the working variables after round 0. -/
theorem test_round : roundStep (f := .w32) (0x428a2f98 : BitVec 32) (0x61626380 : BitVec 32)
    (loadWorking (initialValue .sha256)) =
      ⟨0x5d6aebcd, 0x6a09e667, 0xbb67ae85, 0x3c6ef372, 0xfa2a4622, 0x510e527f, 0x9b05688c, 0x1f83d9ab⟩ := by
  decide +kernel

/-- V22: the 64-bit family with every input bit 1. -/
theorem test_compress64 : compress .w64 (Eight.ofFn fun _ => (0xffffffffffffffff : BitVec 64))
    (List.replicate 128 0xff) =
      ⟨0x9b0f121696e951ee, 0x41d0b467b741e768, 0x564f41ebb3b72884, 0xf805b40fcacb5bc1,
       0x3c379cffcf02a900, 0x9b17a37f809ac554, 0x79c9fd2e1c83b6ab, 0xe948d9e252c02c7a⟩ := by
  decide +kernel

/-! ## Padding: R211's example, V42, V55 -/

theorem test_paddedTail : paddedTail .w32 [0x61, 0x62, 0x63] 3 =
    [0x61, 0x62, 0x63, 0x80] ++ List.replicate 52 0x00 ++ [0, 0, 0, 0, 0, 0, 0, 0x18] := by decide +kernel

theorem test_paddedTail_largest : paddedTail .w32 (List.replicate 63 0x61) 63 =
    List.replicate 63 0x61 ++ [0x80] ++ List.replicate 56 0x00 ++ [0, 0, 0, 0, 0, 0, 1, 0xf8] := by
  decide +kernel

theorem test_lengthField_largest : be 8 (8 * (2 ^ 61 - 1)) =
    [0xff, 0xff, 0xff, 0xff, 0xff, 0xff, 0xff, 0xf8] := by decide +kernel

/-! ## The commands, one step each -/

/-- R181's example: INIT SHA256 from phase ERROR. -/
theorem test_init_answer :
    answer (step (sent [0x01010000] (idle .error .sha512 (some .usage)))) = some [0x04800000] := by
  decide +kernel

theorem test_init_chain : after (readChain .w32) (step (sent [0x01010000] (idle .empty .sha224 none))) =
    some ⟨0x6a09e667, 0xbb67ae85, 0x3c6ef372, 0xa54ff53a, 0x510e527f, 0x9b05688c, 0x1f83d9ab, 0x5be0cd19⟩ := by
  decide +kernel

/-- R23: `byte_counter` has 64 bits in the 32-bit family and 128 in the 64-bit family. -/
theorem test_counter_width :
    Counter .sha224 = BitVec 64 ∧ Counter .sha256 = BitVec 64 ∧ Counter .sha384 = BitVec 128 ∧
      Counter .sha512 = BitVec 128 ∧ Counter .sha512_224 = BitVec 128 ∧ Counter .sha512_256 = BitVec 128 :=
  ⟨rfl, rfl, rfl, rfl, rfl, rfl⟩

/-- R182's example, UPDATE "abc" after INIT SHA256, and P2: UPDATE of 10 bytes `61` after 60 of them completes
a block. -/
theorem test_update :
    after (fun t => (t.responses, t.byteCounter.toNat, t.bufLen, t.buffer))
      (step (sent [0x02000003, 0x61626300] (active .sha256 0 []))) =
      some ([0x04800000], 3, 3, [(0, 0x61), (1, 0x62), (2, 0x63)]) ∧
    after (fun t => (t.byteCounter.toNat, t.bufLen, memRead t 0 6, readChain .w32 t))
      (step (sent [0x0200000a, 0x61616161, 0x61616161, 0x61610000]
        (active .sha256 60 (List.replicate 60 0x61)))) =
      some (70, 6, List.replicate 6 0x61,
        ⟨0xdf5bb81c, 0xe81e0626, 0xfb45a894, 0x4fd40f31, 0xb25e6816, 0xd6d499c1, 0xab904929, 0x00635e66⟩) :=
  ⟨by decide +kernel, by decide +kernel⟩

/-- V55: the count may reach `2^61 - 1` and not pass it. -/
theorem test_update_overflow :
    answer (exec (.update [0x61]) (active .sha256 (2 ^ 61 - 2) (List.replicate 62 0x61))) =
      some [0x04800000] ∧
    answer (exec (.update [0x61, 0x61]) (active .sha256 (2 ^ 61 - 2) (List.replicate 62 0x61))) =
      some [0x2c900000] ∧
    answer (exec (.update [0x61]) (active .sha512_256 (2 ^ 125 - 1) (List.replicate 127 0x61))) =
      some [0x2e900000] := by decide +kernel

/-- V51, row 5. -/
theorem test_finalize_sha256 : answer (step (sent [0x03000000] (holdsAbc .sha256))) =
    some [0x08800020, 0xba7816bf, 0x8f01cfea, 0x414140de, 0x5dae2223, 0xb00361a3, 0x96177a9c,
      0xb410ff61, 0xf20015ad] := by decide +kernel

/-- V31, V56: SHA-512/224 ends with the upper half of `H[3]`. -/
theorem test_finalize_sha512_224 : answer (step (sent [0x03000000] (holdsAbc .sha512_224))) =
    some [0x0a00001c, 0x4634270f, 0x707b6a54, 0xdaae7530, 0x460842e2, 0x0e37ed26, 0x5ceee9a4,
      0x3e8924aa] := by decide +kernel

/-- V51, row 7. -/
theorem test_reset_answer :
    answer (step (sent [0x04000000] (idle .finalized .sha256 none))) = some [0x04800000] := by decide +kernel

/-- V52 (a): RESET before any INIT. -/
theorem test_reset_usage : answer (step (sent [0x04000000] State.reset)) = some [0x1c080000] := by
  decide +kernel

/-- V30: SHA-384 of the empty message, from phase ERROR. -/
theorem test_digest_empty : answer (step (sent [0x05020000] (idle .error .sha224 (some .illegal)))) =
    some [0x09000030, 0x38b060a7, 0x51ac9638, 0x4cd9327e, 0xb1b1e36a, 0x21fdb711, 0x14be0743, 0x4c0cc7bf,
      0x63f6e1da, 0x274edebf, 0xe76f65fb, 0xd51ad2f1, 0x4898b95b] := by decide +kernel

/-- V43: SHA-224 of 64 bytes `61`, a whole block and a whole block of padding. -/
theorem test_digest_block : answer (step (sent (0x05000040 :: List.replicate 16 0x61616161) State.reset)) =
    some [0x0800001c, 0xa88cd5cd, 0xe6d6fe91, 0x36a4e58b, 0x49167461, 0xea95d388, 0xca2bdb7a, 0xfdc3cbf4] := by
  decide +kernel

/-- V51, row 1, and V52 (b), row 8. -/
theorem test_status :
    answer (step (sent [0x06000000] State.reset)) = some [0x00000000] ∧
    answer (step (sent [0x06000000] (idle .error .sha256 (some .usage)))) = some [0x0c880000] := by
  decide +kernel

/-- V52 (b), rows 4 and 6. -/
theorem test_usage :
    answer (step (sent [0x03000000] (idle .finalized .sha256 none))) = some [0x1c880000] ∧
    answer (step (sent [0x02000000] (idle .error .sha256 (some .usage)))) = some [0x1c880000] := by
  decide +kernel

/-- V53 with its payload consumed, and V52 (b), row 7: the first cause is kept. -/
theorem test_illegal :
    after (fun t => (t.responses, t.commands))
      (step (sent [0xff000005, 0x06000000, 0x06000000, 0x03000000] (active .sha256 0 []))) =
      some ([0x3c980000], [0x03000000]) ∧
    answer (step (sent [0x00000000] (idle .error .sha256 (some .usage)))) = some [0x3c880000] := by
  decide +kernel

/-- V54: ILLEGAL before USAGE, and ILLEGAL before OVERFLOW. -/
theorem test_priority :
    answer (step (sent [0x02010003, 0x61626300] (idle .finalized .sha256 none))) = some [0x3c980000] ∧
    answer (step (sent [0x02080001, 0x61000000] (active .sha256 (2 ^ 61 - 1) (List.replicate 63 0)))) =
      some [0x3c980000] := by decide +kernel

/-- R264: a frame that lacks a payload word waits. -/
theorem test_wait : after (fun t => (t.commands, t.responses, t.phase))
    (step (sent [0x02000005, 0x61626364] (active .sha256 0 []))) =
      some ([0x02000005, 0x61626364], [], .active) := by decide +kernel

/-- R260: hardware reset in the middle of a computation. -/
theorem test_hardwareReset :
    after (fun t => (t.phase, t.variant, t.commands, t.responses))
      (step (hostReset (sent [0x03000000] (holdsAbc .sha512)))) = some (.empty, .sha224, [], []) := by decide +kernel

/-- The host's side of the streams: words are sent to the end and taken from the front. -/
theorem test_host_streams :
    (hostSend [2, 3] (sent [1] State.reset)).commands = [1, 2, 3] ∧
    hostTake { State.reset with responses := [7, 8] } = ([7, 8], State.reset) := by decide +kernel

/-! ## Witnesses

One theorem `witness_<Name>` for each statement `Obligations.<Name>` that has hypotheses: concrete states and
operands that meet all of them, clause by clause, at the ends of their ranges. -/

theorem witness_DecodeOfEncodeIsTheCommand : (Instr.update (List.replicate 65535 0x61)).wellFormed = true ∧
    (Instr.digest .sha512_256 []).wellFormed = true := by
  constructor
  · simp only [Instr.wellFormed, List.length_replicate]; decide
  · decide

theorem witness_EncodeOfDecodedHasTheSameHeader :
    [(0x616263ff : Word32)].length = payloadWordCount 0x02000003 ∧
    decodeFrame 0x02000003 [0x616263ff] = some (.update [0x61, 0x62, 0x63]) := by decide +kernel

theorem witness_PayloadBytesTravelInOrder :
    3 ≤ 4 * [(0x616263ff : Word32)].length ∧
    ([0x61626300] : List Word32).length = [(0x616263ff : Word32)].length ∧
    (∀ k, k < 3 → (([0x61626300] : List Word32).getD (k / 4) 0).extractLsb' (24 - 8 * (k % 4)) 8 =
      (([0x616263ff] : List Word32).getD (k / 4) 0).extractLsb' (24 - 8 * (k % 4)) 8) ∧
    (0x03000000 : Word32).extractLsb' 0 16 = 0 := by decide +kernel

theorem witness_StatusWordHasFormatS : 0 < 256 ∧ 64 < 256 ∧ 255 < 256 := by decide

theorem witness_RotateRightMovesEveryBit :
    0 < 1 ∧ 31 < Family.w32.w ∧ 63 < Family.w64.w ∧ 0 < Family.w64.w := by decide

theorem witness_ShiftRightDivides : Family.w32.w ≤ 32 ∧ Family.w64.w ≤ 65 := by decide

theorem witness_ChoiceAndMajorityBits : 31 < Family.w32.w ∧ 63 < Family.w64.w := by decide

theorem witness_SigmaFunctionsAreLinear :
    ssig1 .w64 ∈ [bsig0 .w64, bsig1 .w64, ssig0 .w64, ssig1 .w64] := by simp

theorem witness_InitialValuesAreDistinct : Variant.sha512 ≠ Variant.sha256 := by decide

theorem witness_ScheduleFollowsItsRecurrence :
    15 < 16 ∧ (16 ≤ 16 ∧ 63 < roundCount .w32) ∧ (16 ≤ 79 ∧ 79 < roundCount .w64) := by decide

theorem witness_RollingWindowGivesTheSchedule :
    16 + 0 < roundCount .w32 ∧ 16 + 47 < roundCount .w32 ∧ 16 + 63 < roundCount .w64 := by decide

theorem witness_CompressFollowsTheRoundEquations : 63 < roundCount .w32 ∧ 79 < roundCount .w64 := by decide

theorem witness_PaddedTailIsOneOrTwoBlocks :
    (List.replicate 55 (0 : Byte)).length ≤ 55 ∧
    (56 ≤ (List.replicate 56 (0 : Byte)).length ∧ (List.replicate 63 (0 : Byte)).length < 64) ∧
    (List.replicate 111 (0 : Byte)).length ≤ 111 ∧
    (112 ≤ (List.replicate 112 (0 : Byte)).length ∧ (List.replicate 127 (0 : Byte)).length < 128) := by
  decide +kernel

theorem witness_PaddedTailHasTheThreeParts :
    ([] : List Byte).length < blockSize .w32 ∧ (List.replicate 127 (0 : Byte)).length < blockSize .w64 ∧
    8 * (2 ^ 61 - 1) < 2 ^ (8 * lengthFieldBytes .w32) ∧
    8 * (2 ^ 125 - 1) < 2 ^ (8 * lengthFieldBytes .w64) ∧
    (0 + 1 + 55) % blockSize .w32 = blockSize .w32 - lengthFieldBytes .w32 := by decide +kernel

/-- The count may be the largest admissible one already, with an empty payload. -/
theorem witness_UpdateCountsItsPayload :
    let s := active .sha256 (2 ^ 61 - 1) (List.replicate 63 0)
    s.phase = .active ∧ s.byteCounter.toNat + ([] : List Byte).length ≤ maxByteCount (familyOf s.variant) ∧
      s.bufLen.toNat < blockSize (familyOf s.variant) := by decide +kernel

theorem witness_ShortUpdateOnlyBuffers :
    let s := holdsAbc .sha384
    s.phase = .active ∧ Memory.wf s.buffer ∧
      s.byteCounter.toNat + [(0x64 : Byte)].length ≤ maxByteCount (familyOf s.variant) ∧
      s.bufLen.toNat + [(0x64 : Byte)].length < blockSize (familyOf s.variant) ∧
      (s.bufLen.toNat ≤ 3 ∧ 3 < s.bufLen.toNat + [(0x64 : Byte)].length) := by decide +kernel

theorem witness_FullBufferIsCompressed :
    let s := active .sha224 127 (List.replicate 63 0x61)
    s.phase = .active ∧ Ready s ∧
      s.byteCounter.toNat + [(0x61 : Byte)].length ≤ maxByteCount (familyOf s.variant) ∧
      s.bufLen.toNat + [(0x61 : Byte)].length = blockSize (familyOf s.variant) := by decide +kernel

theorem witness_UpdateRaisesUsageThenOverflowElseAbsorbs :
    State.reset.phase ≠ .active ∧
    ((active .sha256 (2 ^ 61 - 1) []).phase = .active ∧
      CountOverflows (.update [0]) (active .sha256 (2 ^ 61 - 1) [])) ∧
    ((active .sha512 (2 ^ 125 - 2) []).phase = .active ∧
      ¬ CountOverflows (.update [0]) (active .sha512 (2 ^ 125 - 2) [])) := by
  refine ⟨by decide, ⟨rfl, ?_⟩, rfl, ?_⟩
  · show 2 ^ 61 - 1 < (active .sha256 (2 ^ 61 - 1) []).byteCounter.toNat + 1; decide +kernel
  · show ¬ 2 ^ 125 - 1 < (active .sha512 (2 ^ 125 - 2) []).byteCounter.toNat + 1; decide +kernel

theorem witness_CuttingAMessageChangesNothing :
    let s := active .sha256 0 []
    s.phase = .active ∧ s.byteCounter.toNat +
      ((List.replicate 63 (0x61 : Byte)).length + [(0x62 : Byte)].length) ≤
        maxByteCount (familyOf s.variant) := by decide +kernel

theorem witness_FinalizeAnswersTheDigest :
    (holdsAbc .sha512_224).phase = .active ∧ State.reset.phase ≠ .active := by decide

theorem witness_ResetIsInitOfTheBoundVariant :
    ((holdsAbc .sha256).phase = .active ∨ (holdsAbc .sha256).phase = .finalized) ∧
    ((idle .finalized .sha384 none).phase = .active ∨ (idle .finalized .sha384 none).phase = .finalized) ∧
    (State.reset.phase = .empty ∨ State.reset.phase = .error) ∧
    ((idle .error .sha384 (some .usage)).phase = .empty ∨
      (idle .error .sha384 (some .usage)).phase = .error) := by decide

theorem witness_DigestIsInitUpdateFinalize : (List.replicate 65535 (0x61 : Byte)).length ≤ 65535 := by
  rw [List.length_replicate]

theorem witness_DigestAnswersTheMessageDigest : ([] : List Byte).length ≤ 65535 := by decide

/-- "abc" is held, and the first byte of a message over an empty one. -/
theorem holdsAbc_holds : Holds .sha256 [0x61, 0x62, 0x63] (holdsAbc .sha256) := by decide +kernel

theorem witness_UpdateAppendsToTheMessage :
    Holds .sha256 [0x61, 0x62, 0x63] (holdsAbc .sha256) ∧
    [(0x61 : Byte), 0x62, 0x63].length + [(0x64 : Byte)].length ≤ maxByteCount (familyOf .sha256) ∧
    Holds .sha512_256 [] (active .sha512_256 0 []) :=
  ⟨holdsAbc_holds, by decide +kernel, by decide +kernel⟩

theorem witness_FinalizeAnswersTheMessageDigest : Holds .sha256 [0x61, 0x62, 0x63] (holdsAbc .sha256) :=
  holdsAbc_holds

theorem witness_EngineHashesEveryMessage :
    State.reset.resetInput = false ∧ State.reset.commands = [] ∧
    (∀ p ∈ ([[0x61], [], [0x62, 0x63]] : List (List Byte)), p.length ≤ 65535) ∧
    ([[0x61], [], [0x62, 0x63]] : List (List Byte)).flatten.length ≤ maxByteCount (familyOf .sha384) := by
  decide +kernel

theorem witness_ResetMakesTheContextFresh : [(0x61 : Byte)].length ≤ 65535 := by decide

theorem witness_LongUpdateExpands :
    (active .sha224 0 []).phase = .active ∧ (active .sha224 0 []).byteCounter.toNat +
      (List.replicate 65536 (0x61 : Byte)).length ≤ maxByteCount (familyOf (active .sha224 0 []).variant) ∧
    65535 < (List.replicate 65536 (0x61 : Byte)).length := by
  rw [List.length_replicate]; decide +kernel

theorem witness_TransitionTable :
    transition State.reset.phase .finalize = none ∧
    transition (holdsAbc .sha256).phase .finalize = some .finalized ∧
    (transition (active .sha224 (2 ^ 61 - 1) []).phase (.update [0]) = some .active ∧
      CountOverflows (.update [0]) (active .sha224 (2 ^ 61 - 1) []) ∧
      (active .sha224 (2 ^ 61 - 1) []).phase = .active) := by
  refine ⟨rfl, rfl, rfl, ?_, rfl⟩
  show 2 ^ 61 - 1 < (active .sha224 (2 ^ 61 - 1) []).byteCounter.toNat + 1
  decide +kernel

theorem witness_ErrorEntry :
    State.reset.phase ≠ .error ∧ (idle .error .sha256 (some .usage)).phase = .error := by decide

theorem witness_IllegalFrameIsConsumedAndRaisesIllegal :
    let s := sent [0xff000005, 1, 2, 3] (holdsAbc .sha256)
    let t := sent [0x02000000, 3] State.reset
    (s.resetInput = false ∧ s.commands = 0xff000005 :: ([1, 2] ++ [3]) ∧
      [(1 : Word32), 2].length = (((0xff000005 : Word32).extractLsb' 0 16).toNat + 3) / 4 ∧
      ¬ LegalHeader 0xff000005) ∧
    (t.resetInput = false ∧ t.commands = 0x02000000 :: ([] ++ [3]) ∧
      ([] : List Word32).length = (((0x02000000 : Word32).extractLsb' 0 16).toNat + 3) / 4 ∧
      LegalHeader 0x02000000) := by decide +kernel

theorem witness_OnlyInitDigestOrResetLeaveError :
    (∃ t, (sent [0x01010000] (idle .error .sha384 (some .overflow))).phase = .error ∧
      step (sent [0x01010000] (idle .error .sha384 (some .overflow))) = .next t ∧ t.phase ≠ .error) ∧
    (∃ t, (hostReset (idle .error .sha384 (some .overflow))).phase = .error ∧
      step (hostReset (idle .error .sha384 (some .overflow))) = .next t ∧ t.phase ≠ .error) :=
  ⟨⟨_, rfl, rfl, by decide⟩, ⟨_, rfl, rfl, by decide⟩⟩

theorem witness_OnlyInitAndDigestBindAVariant :
    (∃ t, step (sent [0x01010000] State.reset) = .next t ∧
      t.variant ≠ (sent [0x01010000] State.reset).variant) ∧
    (∃ t, step (hostReset (holdsAbc .sha512)) = .next t ∧
      t.variant ≠ (hostReset (holdsAbc .sha512)).variant) :=
  ⟨⟨_, rfl, by decide⟩, ⟨_, rfl, by decide⟩⟩

theorem witness_StepRunsTheDecodedCommand :
    let s := sent [0x02000003, 0x616263ff, 0x03000000] (active .sha256 0 [])
    (s.resetInput = false ∧ s.commands = 0x02000003 :: ([0x616263ff] ++ [0x03000000]) ∧
      [(0x616263ff : Word32)].length = (((0x02000003 : Word32).extractLsb' 0 16).toNat + 3) / 4 ∧
      decodeFrame 0x02000003 [0x616263ff] = some (.update [0x61, 0x62, 0x63])) ∧
    (Instr.reset.wellFormed = true ∧ (sent [0x04000000] s).commands = encode .reset ++ []) := by
  decide +kernel

theorem witness_WithoutAWholeFrameTheEngineWaits :
    State.reset.resetInput = false ∧ State.reset.commands = [] ∧
    (sent [0x02000005, 0x61626364] State.reset).commands = 0x02000005 :: [0x61626364] ∧
    [(0x61626364 : Word32)].length < (((0x02000005 : Word32).extractLsb' 0 16).toNat + 3) / 4 := by
  decide +kernel

theorem witness_OneResponseFramePerCommandFrame :
    let s := sent [0x03000000, 0x06000000] (holdsAbc .sha384)
    let t := sent [0x00000004, 0x06000000] (holdsAbc .sha384)
    (s.resetInput = false ∧ s.commands = 0x03000000 :: ([] ++ [0x06000000]) ∧
      ([] : List Word32).length = (((0x03000000 : Word32).extractLsb' 0 16).toNat + 3) / 4 ∧
      decodeFrame 0x03000000 [] = some .finalize) ∧
    (t.resetInput = false ∧ t.commands = 0x00000004 :: ([0x06000000] ++ []) ∧
      [(0x06000000 : Word32)].length = (((0x00000004 : Word32).extractLsb' 0 16).toNat + 3) / 4 ∧
      decodeFrame 0x00000004 [0x06000000] = none) := by decide +kernel

theorem witness_HardwareResetEmptiesTheEngine : (hostReset (holdsAbc .sha256)).resetInput = true := by decide

theorem witness_InvariantIsKeptByEveryStep :
    EngineInv (sent [0x01010000] (holdsAbc .sha512)) ∧
    ∃ t, step (sent [0x01010000] (holdsAbc .sha512)) = .next t :=
  ⟨by decide +kernel, _, rfl⟩

/-- The second state's draw counter and transient registers differ from the first's, and so would the
registers of a context that is not ACTIVE. -/
theorem witness_UnspecifiedValuesAreNeverObserved :
    (EngineInv (holdsAbc .sha512) ∧
      AgreeOnSpecified (holdsAbc .sha512) { holdsAbc .sha512 with draws := 7 }) ∧
    (EngineInv State.reset ∧
      AgreeOnSpecified State.reset { State.reset with byteCounter := 9, bufLen := 100 }) :=
  ⟨⟨by decide +kernel, rfl, rfl, rfl, rfl, rfl, rfl, fun _ => ⟨rfl, rfl, rfl, rfl⟩⟩,
    ⟨by decide +kernel, rfl, rfl, rfl, rfl, rfl, rfl, fun h => nomatch h⟩⟩

theorem witness_ControlDoesNotDependOnData :
    SameShape (.update [0x61, 0x62]) (.update [0xff, 0x00]) ∧
    SameControl (holdsAbc .sha256) (active .sha256 3 [0x00, 0x80, 0xff]) :=
  ⟨⟨[0xff, 0x00], rfl, rfl⟩, by decide +kernel⟩

end Sys2Proof.Tests
end

section
/-! The claims about frames, headers and packed payloads (30_encoding.md), with the facts about header
fields, legal headers and response frames that they rest on. -/

namespace Sys2Proof

/-! ## Header fields under a mask -/

/-- A header word is determined by its four fields. -/
theorem eq_iff_header_fields {x y : Word32} :
    x = y ↔ headerOpcode x = headerOpcode y ∧ headerRsv x = headerRsv y ∧ headerV x = headerV y ∧
      headerLen x = headerLen y := by
  refine ⟨fun h => by simp [h], fun ⟨ho, hr, hv, hl⟩ => BitVec.eq_of_toNat_eq ?_⟩
  simp only [headerOpcode, headerRsv, headerV, headerLen, BitVec.toNat_eq, BitVec.extractLsb'_toNat,
    Nat.shiftRight_eq_div_pow] at ho hr hv hl
  omega

/-- A match under a mask whose bits 31:19 are set: `opcode` is the row's, `rsv` is 0, and `v` and `len`
are 0 where the mask looks (rule R86). -/
theorem and_mask_eq_headerWord_iff {x : Word32} {opcode : BitVec 8} (mask : Word32)
    (ho : headerOpcode mask = BitVec.allOnes 8) (hr : headerRsv mask = BitVec.allOnes 5) :
    x &&& mask = headerWord opcode 0 0 ↔ headerOpcode x = opcode ∧ headerRsv x = 0 ∧
      headerV x &&& headerV mask = 0 ∧ headerLen x &&& headerLen mask = 0 := by
  obtain ⟨hopcode, hrsv⟩ :
      headerOpcode (x &&& mask) = headerOpcode x ∧ headerRsv (x &&& mask) = headerRsv x := by
    rw [← BitVec.and_allOnes (x := headerOpcode x), ← ho, ← BitVec.and_allOnes (x := headerRsv x), ← hr]
    exact ⟨BitVec.extractLsb'_and, BitVec.extractLsb'_and⟩
  rw [eq_iff_header_fields, hopcode, hrsv, headerOpcode_headerWord, headerRsv_headerWord,
    headerV_headerWord, headerLen_headerWord]
  simp only [headerV, headerLen, BitVec.extractLsb'_and]

/-- A mask that ignores only `v` (INIT). -/
theorem and_mask_ignoring_v_iff {x : Word32} {opcode : BitVec 8} :
    x &&& 0xFFF8FFFF = headerWord opcode 0 0 ↔
      headerOpcode x = opcode ∧ headerRsv x = 0 ∧ headerLen x = 0 := by
  rw [and_mask_eq_headerWord_iff _ (by decide) (by decide),
    show headerV 0xFFF8FFFF = 0 by decide, show headerLen 0xFFF8FFFF = BitVec.allOnes 16 by decide,
    BitVec.and_allOnes]
  simp

/-- A mask that ignores only `len` (UPDATE). -/
theorem and_mask_ignoring_len_iff {x : Word32} {opcode : BitVec 8} :
    x &&& 0xFFFF0000 = headerWord opcode 0 0 ↔
      headerOpcode x = opcode ∧ headerRsv x = 0 ∧ headerV x = 0 := by
  rw [and_mask_eq_headerWord_iff _ (by decide) (by decide),
    show headerV 0xFFFF0000 = BitVec.allOnes 3 by decide, show headerLen 0xFFFF0000 = 0 by decide,
    BitVec.and_allOnes]
  simp

/-- A mask that ignores `v` and `len` (DIGEST). -/
theorem and_mask_ignoring_v_len_iff {x : Word32} {opcode : BitVec 8} :
    x &&& 0xFFF80000 = headerWord opcode 0 0 ↔ headerOpcode x = opcode ∧ headerRsv x = 0 := by
  rw [and_mask_eq_headerWord_iff _ (by decide) (by decide),
    show headerV 0xFFF80000 = 0 by decide, show headerLen 0xFFF80000 = 0 by decide]
  simp

/-- A mask that ignores nothing (FINALIZE, RESET, STATUS). -/
theorem and_mask_full_iff {x : Word32} {opcode : BitVec 8} :
    x &&& 0xFFFFFFFF = headerWord opcode 0 0 ↔
      headerOpcode x = opcode ∧ headerRsv x = 0 ∧ headerV x = 0 ∧ headerLen x = 0 := by
  rw [and_mask_eq_headerWord_iff _ (by decide) (by decide),
    show headerV 0xFFFFFFFF = BitVec.allOnes 3 by decide,
    show headerLen 0xFFFFFFFF = BitVec.allOnes 16 by decide, BitVec.and_allOnes, BitVec.and_allOnes]

/-! ## Variant operands and legal headers -/

/-- The ids of variants are 0 to 5 (rule R111). -/
theorem toNat_le_five_iff {x : BitVec 3} : x.toNat ≤ 5 ↔ ∃ v, x = variantId v := by
  rw [← variantOfId_isSome, Option.isSome_iff_exists]
  exact exists_congr fun v => variantOfId_eq_some.trans eq_comm

/-- The decoder reads a command exactly from a legal header (rule R85). -/
theorem exists_decodeFrame_iff_legalHeader {header : Word32} {payload : List Word32} :
    (∃ i, decodeFrame header payload = some i) ↔ Machine.LegalHeader header := by
  simp only [decodeFrame_eq_some, headerRsv, headerOpcode, headerV, headerLen, Machine.LegalHeader,
    toNat_le_five_iff]
  constructor
  · rintro ⟨i, hr, hi⟩
    refine ⟨hr, ?_⟩
    cases i with
    | init v =>
      obtain ⟨ho, hv, hl⟩ := hi
      exact .inl ⟨ho, ⟨v, hv⟩, hl⟩
    | update p =>
      obtain ⟨ho, hv, -⟩ := hi
      exact .inr (.inl ⟨ho, hv⟩)
    | finalize => exact .inr (.inr (.inl hi))
    | reset => exact .inr (.inr (.inr (.inl hi)))
    | digest v p =>
      obtain ⟨ho, hv, -⟩ := hi
      exact .inr (.inr (.inr (.inr (.inl ⟨ho, v, hv⟩))))
    | status => exact .inr (.inr (.inr (.inr (.inr hi))))
  · rintro ⟨hr, ⟨ho, ⟨v, hv⟩, hl⟩ | ⟨ho, hv⟩ | h | h | ⟨ho, v, hv⟩ | h⟩
    · exact ⟨.init v, hr, ho, hv, hl⟩
    · exact ⟨.update _, hr, ho, hv, rfl⟩
    · exact ⟨.finalize, hr, h⟩
    · exact ⟨.reset, hr, h⟩
    · exact ⟨.digest v _, hr, ho, hv, rfl⟩
    · exact ⟨.status, hr, h⟩

/-- Settles O2: each row's mask fixes exactly the fields that the decoder looks at for that row. -/
theorem headerSelectsItsTableRow : Obligations.HeaderSelectsItsTableRow := by
  intro x payload
  refine ⟨?init, ?update, ?finalize, ?reset, ?digest, ?status⟩
  case init =>
    refine (and_congr (and_mask_ignoring_v_iff (opcode := 0x01)) toNat_le_five_iff).trans ?_
    simp only [decodeFrame_eq_some]
    exact ⟨fun ⟨⟨ho, hr, hl⟩, v, hv⟩ => ⟨v, ⟨hr, ho, hv, hl⟩, hv.symm⟩,
      fun ⟨v, ⟨hr, ho, hv, hl⟩, _⟩ => ⟨⟨ho, hr, hl⟩, v, hv⟩⟩
  case update =>
    refine (and_mask_ignoring_len_iff (opcode := 0x02)).trans ?_
    rw [decodeFrame_eq_some]
    exact ⟨fun ⟨ho, hr, hv⟩ => ⟨hr, ho, hv, rfl⟩, fun ⟨hr, ho, hv, _⟩ => ⟨ho, hr, hv⟩⟩
  case digest =>
    refine (and_congr (and_mask_ignoring_v_len_iff (opcode := 0x05)) toNat_le_five_iff).trans ?_
    simp only [decodeFrame_eq_some]
    exact ⟨fun ⟨⟨ho, hr⟩, v, hv⟩ => ⟨v, ⟨hr, ho, hv, rfl⟩, hv.symm⟩,
      fun ⟨v, ⟨hr, ho, hv, _⟩, _⟩ => ⟨⟨ho, hr⟩, v, hv⟩⟩
  case finalize =>
    rw [decodeFrame_eq_some]
    exact (and_mask_full_iff (opcode := 0x03)).trans and_left_comm
  case reset =>
    rw [decodeFrame_eq_some]
    exact (and_mask_full_iff (opcode := 0x04)).trans and_left_comm
  case status =>
    rw [decodeFrame_eq_some]
    exact (and_mask_full_iff (opcode := 0x06)).trans and_left_comm

/-! ## Frames and payloads -/

/-- Settles O5: the cut of the stream is at `ceil(len / 4)`, and `len` has 16 bits. -/
theorem frameLengthComesFromLenAlone : Obligations.FrameLengthComesFromLenAlone := by
  intro header ws
  refine ⟨?_, ?_⟩
  · have := (header.extractLsb' 0 16).isLt
    omega
  · rw [takeFrame, splitWords_eq, payloadWordCount, headerLen]
    split <;> rfl

/-- Byte `k` of a payload is in word `k / 4` (rule R83). -/
theorem unpackBytes_getElem? {len : Nat} {ws : List Word32} (hlen : len ≤ 4 * ws.length) {k : Nat}
    (hk : k < len) :
    (unpackBytes len ws)[k]? = some ((ws.getD (k / 4) 0).extractLsb' (24 - 8 * (k % 4)) 8) := by
  have hword : k / 4 < ws.length := by omega
  rw [unpackBytes, List.getElem?_take_of_lt hk, flatMap_bytesOfWord_getElem?, List.getD_eq_getElem?_getD,
    List.getElem?_eq_getElem hword, Option.map_some, Option.getD_some]

theorem unpackBytes_length {len : Nat} {ws : List Word32} (hlen : len ≤ 4 * ws.length) :
    (unpackBytes len ws).length = len := by
  rw [unpackBytes, List.length_take, flatMap_bytesOfWord_length, Nat.min_eq_left hlen]

/-- Settles O6: the payload is the list of its `len` bytes, each read from its place. -/
theorem payloadBytesTravelInOrder : Obligations.PayloadBytesTravelInOrder := by
  intro len ws hlen
  refine ⟨unpackBytes_length hlen, fun k hk => unpackBytes_getElem? hlen hk, ?_, ?_⟩
  · intro ws' hws hbytes
    have hlen' : len ≤ 4 * ws'.length := hws ▸ hlen
    refine List.ext_getElem? fun k => ?_
    by_cases hk : k < len
    · rw [unpackBytes_getElem? hlen' hk, unpackBytes_getElem? hlen hk, hbytes k hk]
    · rw [List.getElem?_eq_none (by rw [unpackBytes_length hlen']; omega),
        List.getElem?_eq_none (by rw [unpackBytes_length hlen]; omega)]
  · intro header hzero
    exact takeFrame_cons header [] ws (by simp [payloadWordCount, headerLen, hzero])

end Sys2Proof

namespace Sys2Proof.Machine

/-! ## The step on a whole frame -/

/-- Settles O43: the decoder reads a command exactly from a legal header, and the step follows it. -/
theorem illegalFrameIsConsumedAndRaisesIllegal : Obligations.IllegalFrameIsConsumedAndRaisesIllegal := by
  intro s header payload rest hreset hcommands hlength
  have hstep := step_of_frame hreset hcommands hlength
  rw [← exists_decodeFrame_iff_legalHeader (payload := payload)]
  cases hdecode : decodeFrame header payload with
  | some i => exact ⟨fun _ => ⟨i, rfl, by rw [hstep, hdecode]⟩, fun hillegal => absurd ⟨i, rfl⟩ hillegal⟩
  | none =>
    exact ⟨fun ⟨i, hi⟩ => by simp at hi,
      fun _ => ⟨_, by rw [hstep, hdecode], rfl, raise_commands _ _, raise_phase _ _, raise_responses _ _⟩⟩

/-! ## Response frames -/

/-- The fields of a status word (format S), and its zeros in bits 18:8 (rule R88). -/
theorem statusWord_fields (code cause : Option Cause) (ph : Phase) (v : Variant) (rlen : Nat) :
    (statusWord code ph v cause rlen).extractLsb' 28 4 = causeBits code ∧
    (statusWord code ph v cause rlen).extractLsb' 26 2 = phaseBits ph ∧
    (statusWord code ph v cause rlen).extractLsb' 23 3 = variantId v ∧
    (statusWord code ph v cause rlen).extractLsb' 19 4 = causeBits cause ∧
    (statusWord code ph v cause rlen).extractLsb' 8 11 = 0 ∧
    (statusWord code ph v cause rlen).extractLsb' 0 8 = BitVec.ofNat 8 rlen := by
  unfold statusWord
  generalize causeBits code = c, phaseBits ph = p, variantId v = u, causeBits cause = e,
    BitVec.ofNat 8 rlen = n
  refine ⟨?_, ?_, ?_, ?_, ?_, ?_⟩ <;>
  · apply BitVec.eq_of_getLsbD_eq
    intro i hi
    simp only [BitVec.getLsbD_extractLsb', BitVec.getLsbD_append]
    interval_cases i <;> simp

/-- The digest lengths are whole words and fit in `rlen` (rule R112). -/
theorem digestLength_lt_and_dvd (v : Variant) : digestLength v < 256 ∧ 4 ∣ digestLength v := by
  cases v <;> decide

theorem finalDigest_length (s : State) : (finalDigest s).length = digestLength s.variant := by
  rw [finalDigest, digestBytes, List.length_take, serialise_length]
  cases s.variant <;> rfl

/-- The frame is read as a command whose response carries a digest (rule R89). -/
abbrev AsksForDigest (decoded : Option Instr) : Prop :=
  decoded = some .finalize ∨ ∃ v p, decoded = some (.digest v p)

/-- From `s` to `t` the engine produced one response frame, with code `code` and payload `bytes`, and left
the rest of the streams and the reset input alone. -/
def Responds (code : Option Cause) (bytes : List Byte) (s t : State) : Prop :=
  t.commands = s.commands ∧ t.resetInput = s.resetInput ∧
    t.responses = s.responses ++ statusWord code t.phase t.variant t.err bytes.length :: packBytes bytes

/-- The answer to a frame read as `decoded`: one response, which carries the digest exactly where a digest
was asked for and the code is OK, and whose code is another one only in phase ERROR (rule R88). -/
def AnswersFrame (decoded : Option Instr) (s t : State) : Prop :=
  ∃ code bytes, Responds code bytes s t ∧
    (code = none ∧ AsksForDigest decoded → bytes.length = digestLength t.variant) ∧
    (¬ (code = none ∧ AsksForDigest decoded) → bytes = []) ∧
    (code ≠ none → t.phase = .error)

theorem raise_answersFrame (x : Cause) (decoded : Option Instr) (s : State) :
    AnswersFrame decoded s (raise x s) :=
  ⟨some x, [], ⟨rfl, rfl, rfl⟩, by simp, by simp, by simp⟩

/-- A plain response answers a command that asks for no digest. `t` is what the command made of `s`. -/
theorem respond_answersFrame {decoded : Option Instr} {s t : State} (hd : ¬ AsksForDigest decoded)
    (hc : t.commands = s.commands) (hr : t.resetInput = s.resetInput) (hs : t.responses = s.responses) :
    AnswersFrame decoded s (respond none [] t) :=
  ⟨none, [], ⟨hc, hr, by simp [hs]⟩, fun h => absurd h.2 hd, fun _ => rfl, fun h => absurd rfl h⟩

/-- The digest answers a command that asks for it. `t` is what the command made of `s`. -/
theorem finishWithDigest_answersFrame {decoded : Option Instr} {s t : State} (hd : AsksForDigest decoded)
    (hc : t.commands = s.commands) (hr : t.resetInput = s.resetInput) (hs : t.responses = s.responses) :
    AnswersFrame decoded s (finishWithDigest t) :=
  ⟨none, finalDigest t, ⟨hc, hr, by simp [hs]⟩, fun _ => finalDigest_length t,
    fun h => absurd ⟨rfl, hd⟩ h, fun h => absurd rfl h⟩

/-- Every command answers its frame. -/
theorem exec_answersFrame (i : Instr) (s : State) : ∃ t, exec i s = .next t ∧ AnswersFrame (some i) s t := by
  obtain ⟨v, rfl, h⟩ | ⟨p, rfl, -, -, h⟩ | ⟨rfl, -, h⟩ | ⟨rfl, -, h⟩ | ⟨v, p, rfl, h⟩ | ⟨rfl, h⟩ |
    ⟨x, h, -⟩ := exec_cases i s
  · exact ⟨_, h, respond_answersFrame (by simp) rfl rfl rfl⟩
  · exact ⟨_, h, respond_answersFrame (by simp) (by simp) (by simp) (by simp)⟩
  · exact ⟨_, h, finishWithDigest_answersFrame (.inl rfl) rfl rfl rfl⟩
  · exact ⟨_, h, respond_answersFrame (by simp) rfl rfl rfl⟩
  · exact ⟨_, h, finishWithDigest_answersFrame (.inr ⟨v, p, rfl⟩) (by simp) (by simp) (by simp)⟩
  · exact ⟨_, h, respond_answersFrame (by simp) rfl rfl rfl⟩
  · exact ⟨_, h, raise_answersFrame x (some i) s⟩

/-- The step on a whole frame, legal or not, answers that frame. -/
theorem step_answersFrame {s : State} {header : Word32} {payload rest : List Word32}
    (hr : s.resetInput = false) (hc : s.commands = header :: (payload ++ rest))
    (hl : payload.length = payloadWordCount header) :
    ∃ t, step s = .next t ∧ AnswersFrame (decodeFrame header payload) { s with commands := rest } t := by
  rw [step_of_frame hr hc hl]
  cases decodeFrame header payload with
  | none => exact ⟨_, rfl, raise_answersFrame .illegal none _⟩
  | some i => exact exec_answersFrame i _

/-- Settles O49: the step answers the frame, and the status word's fields say what the answer is. -/
theorem oneResponseFramePerCommandFrame : Obligations.OneResponseFramePerCommandFrame := by
  intro s header payload rest hreset hcommands hlength
  obtain ⟨t, hstep, code, bytes, ⟨hc, hr, hs⟩, hdigest, hempty, herror⟩ :=
    step_answersFrame hreset hcommands hlength
  obtain ⟨fcode, fphase, fvariant, fcause, fzero, frlen⟩ :=
    statusWord_fields code t.err t.phase t.variant bytes.length
  have hbytes : bytes.length < 256 ∧ 4 ∣ bytes.length := by
    by_cases h : code = none ∧ AsksForDigest (decodeFrame header payload)
    · rw [hdigest h]; exact digestLength_lt_and_dvd t.variant
    · simp [hempty h]
  have hrlen : (BitVec.ofNat 8 bytes.length).toNat = bytes.length := by
    rw [BitVec.toNat_ofNat, Nat.mod_eq_of_lt hbytes.1]
  refine ⟨t, code, _, _, hstep, hc, hr.trans hreset, hs, fcode, fphase, fvariant, fcause, fzero,
    ?_, ?_, ?_, ?_⟩
  all_goals rw [frlen, hrlen]
  · rw [packBytes_length]; omega
  · exact hdigest
  · exact fun h => by simp [hempty h]
  · exact fun h => ⟨by simp [hempty fun h' => h h'.1], herror h⟩

end Sys2Proof.Machine
end

section
/-! The claim about the initial chaining values (40_variant_tables.md). -/

namespace Sys2Proof.Machine

/-- The leading word alone tells the variants apart (rule R118). -/
theorem initialValue_h0_toNat_injective :
    Function.Injective fun v : Variant => (initialValue v).h0.toNat := by
  have hnodup : ([Variant.sha224, .sha256, .sha384, .sha512, .sha512_224, .sha512_256].map
      fun v => (initialValue v).h0.toNat).Nodup := by decide
  have hmem : ∀ v : Variant, v ∈ [Variant.sha224, .sha256, .sha384, .sha512, .sha512_224, .sha512_256] := by
    intro v
    cases v <;> decide
  exact fun u v huv => List.inj_on_of_nodup_map hnodup (hmem u) (hmem v) huv

/-- Settles O16: equal lists would have equal leading words. -/
theorem initialValuesAreDistinct : Obligations.InitialValuesAreDistinct :=
  fun _ _ hne hlists => hne (initialValue_h0_toNat_injective (List.cons.inj hlists).1)

end Sys2Proof.Machine
end

section
/-! The claims about word arithmetic (41_word_arithmetic.md), with what each operation does to a bit and to
the number a word stands for, at every width. -/

namespace Sys2Proof.Machine

/-! ## Rotation and shift (rules R131, R133, R134) -/

/-- The bit rule holds for every amount, also past the width (rule R131, rule R134). -/
theorem rotr_getLsbD {w i : Nat} (x : BitVec w) (n : Nat) (hi : i < w) :
    (rotr x n).getLsbD i = x.getLsbD ((i + n) % w) := by
  have hn : n % w < w := Nat.mod_lt n (by omega)
  rw [rotr, BitVec.getLsbD_rotateRight, ← Nat.add_mod_mod]
  by_cases hwrap : i < w - n % w
  · rw [Nat.mod_eq_of_lt (show i + n % w < w by omega), Nat.add_comm i]
    simp [hwrap]
  · rw [Nat.mod_eq_sub_mod (show w ≤ i + n % w by omega),
      Nat.mod_eq_of_lt (show i + n % w - w < w by omega), show i + n % w - w = i - (w - n % w) by omega]
    simp [hwrap, hi]

/-- A rotation by any amount is one by less than the width (rule R134). -/
theorem rotr_mod {w : Nat} (x : BitVec w) (n : Nat) : rotr x (n % w) = rotr x n :=
  BitVec.rotateRight_mod_eq_rotateRight

@[simp] theorem rotr_zero {w : Nat} (x : BitVec w) : rotr x 0 = x :=
  BitVec.eq_of_getLsbD_eq fun i hi => by rw [rotr_getLsbD x 0 hi, Nat.add_zero, Nat.mod_eq_of_lt hi]

/-- Rule R131's formula: the bits of the right shift already fit, so cutting the whole to `w` bits cuts
only the left shift. -/
theorem rotr_toNat {w n : Nat} (x : BitVec w) (hn : n < w) :
    (rotr x n).toNat = ((x.toNat >>> n) ||| (x.toNat <<< (w - n))) % 2 ^ w := by
  have hfits : x.toNat >>> n < 2 ^ w := (Nat.shiftRight_le x.toNat n).trans_lt x.isLt
  rw [rotr, BitVec.toNat_rotateRight, Nat.mod_eq_of_lt hn, Nat.or_mod_two_pow, Nat.mod_eq_of_lt hfits]

/-- Settles O9: both readings of a rotation hold at every width. -/
theorem rotateRightMovesEveryBit : Obligations.RotateRightMovesEveryBit :=
  fun _ x n hn => ⟨fun _ hi => rotr_getLsbD x n hi, rotr_zero x, fun _ => rotr_toNat x hn⟩

theorem shr_toNat {w : Nat} (x : BitVec w) (n : Nat) : (shr x n).toNat = x.toNat / 2 ^ n := by
  rw [shr, BitVec.toNat_ushiftRight, Nat.shiftRight_eq_div_pow]

theorem shr_eq_zero {w n : Nat} (x : BitVec w) (hn : w ≤ n) : shr x n = 0 :=
  BitVec.ushiftRight_eq_zero hn

/-- Settles O11: the shift is a division of naturals, and amounts of `w` or more follow decision D21. -/
theorem shiftRightDivides : Obligations.ShiftRightDivides :=
  fun _ x n => ⟨shr_toNat x n, shr_eq_zero x, (rotr_mod x n).symm⟩

/-! ## Addition (rule R132) -/

/-- Settles O10: `add` is the addition of bit vectors. -/
theorem additionWraps : Obligations.AdditionWraps :=
  fun _ a b c => ⟨BitVec.toNat_add a b, BitVec.add_comm a b, BitVec.add_assoc a b c⟩

/-! ## Choice and majority (rules R136, R137) -/

theorem ch_getLsbD {w i : Nat} (x y z : BitVec w) (hi : i < w) :
    (ch x y z).getLsbD i = if x.getLsbD i then y.getLsbD i else z.getLsbD i := by
  rw [ch, BitVec.getLsbD_xor, BitVec.getLsbD_and, BitVec.getLsbD_and, BitVec.getLsbD_not]
  cases x.getLsbD i <;> simp [hi]

/-- The xor of the three pairwise conjunctions of bits is their majority. -/
theorem xor_and_eq_majority : ∀ a b c : Bool,
    (((a && b) ^^ (a && c)) ^^ (b && c)) = decide (2 ≤ a.toNat + b.toNat + c.toNat) := by
  decide

theorem maj_getLsbD {w : Nat} (x y z : BitVec w) (i : Nat) :
    (maj x y z).getLsbD i =
      decide (2 ≤ (x.getLsbD i).toNat + (y.getLsbD i).toNat + (z.getLsbD i).toNat) := by
  simp only [maj, BitVec.getLsbD_xor, BitVec.getLsbD_and, xor_and_eq_majority]

/-- Settles O12: both functions act bit by bit. -/
theorem choiceAndMajorityBits : Obligations.ChoiceAndMajorityBits :=
  fun _ x y z i hi => ⟨ch_getLsbD x y z hi, maj_getLsbD x y z i⟩

/-! ## The sigma functions (rules R138, R139) -/

/-- Settles O13: each sigma function is by definition the xor of its three terms, with the amounts of its
family. -/
theorem sigmaFunctionsHaveTheirAmounts : Obligations.SigmaFunctionsHaveTheirAmounts :=
  ⟨fun _ => ⟨rfl, rfl, rfl, rfl⟩, fun _ => ⟨rfl, rfl, rfl, rfl⟩⟩

end Sys2Proof.Machine
end

section
/-! The claims about the compression core (42_compression.md): what each schedule word is, and the working
variables between two rounds. -/

namespace Sys2Proof.Machine

/-! ## The message schedule (rules R151, R152) -/

/-- Newest word first, the schedule is the expander's list. -/
theorem schedule_reverse (f : Family) (block : List Byte) :
    (schedule f block).reverse = expandSchedule f (roundCount f - 16) (blockWords f block).reverse :=
  List.reverse_reverse _

/-- The block's words stay at the front of the schedule. -/
theorem schedule_take_sixteen (f : Family) (block : List Byte) :
    (schedule f block).take 16 = blockWords f block := by
  rw [← List.reverse_reverse (schedule f block), List.take_reverse, List.length_reverse, schedule_length,
    schedule_reverse, expandSchedule_drop, List.reverse_reverse]

/-- The first sixteen schedule words are the block's big-endian words (rule R151). -/
theorem schedule_getD_of_lt_sixteen (f : Family) (block : List Byte) {i : Nat} (hi : i < 16) :
    (schedule f block).getD i 0 =
      BitVec.ofNat f.w (fromBe ((block.drop (i * wordBytes f)).take (wordBytes f))) := by
  rw [List.getD_eq_getElem?_getD, ← List.getElem?_take_of_lt hi, schedule_take_sixteen, blockWords,
    loadWords_getElem? f 16 block i hi, Option.getD_some]

/-- The place of `W[t]`, newest word first. -/
theorem schedule_reverse_getElem? (f : Family) (block : List Byte) {t : Nat} (ht : t < roundCount f) :
    (schedule f block).reverse[roundCount f - 1 - t]? = (schedule f block)[t]? := by
  rw [List.getElem?_reverse (by rw [schedule_length]; omega), schedule_length,
    show roundCount f - 1 - (roundCount f - 1 - t) = t by omega]

/-- The words before `W[t]`, newest first. -/
def scheduleBefore (f : Family) (block : List Byte) (t : Nat) : List (Word f) :=
  (schedule f block).reverse.drop (roundCount f - t)

/-- Counting back `k` words from `W[t]` gives `W[t - k]`. -/
theorem wordBack_scheduleBefore (f : Family) (block : List Byte) {t k : Nat} (ht : t ≤ roundCount f)
    (hk : 1 ≤ k) (hkt : k ≤ t) :
    wordBack (scheduleBefore f block t) k = (schedule f block).getD (t - k) 0 := by
  have hindex : roundCount f - t + (k - 1) = roundCount f - 1 - (t - k) := by omega
  rw [wordBack, scheduleBefore, List.getD_eq_getElem?_getD, List.getElem?_drop, hindex,
    schedule_reverse_getElem? f block (by omega), List.getD_eq_getElem?_getD]

/-- From the seventeenth on, a schedule word is the next word after those before it (rule R152). -/
theorem schedule_getD_eq_nextScheduleWord (f : Family) (block : List Byte) {t : Nat} (ht : 16 ≤ t)
    (htc : t < roundCount f) :
    (schedule f block).getD t 0 = nextScheduleWord f (scheduleBefore f block t) := by
  have hindex : roundCount f - 1 - t + 1 = roundCount f - t := by omega
  rw [List.getD_eq_getElem?_getD, ← schedule_reverse_getElem? f block htc, schedule_reverse,
    expandSchedule_getElem? _ _ _ _ (by omega), Option.getD_some, hindex, scheduleBefore, schedule_reverse]

/-- The recurrence, with the distances 2, 7, 15 and 16 (rule R152). -/
theorem schedule_getD_recurrence (f : Family) (block : List Byte) {t : Nat} (ht : 16 ≤ t)
    (htc : t < roundCount f) :
    (schedule f block).getD t 0 =
      add (add (add (ssig1 f ((schedule f block).getD (t - 2) 0)) ((schedule f block).getD (t - 7) 0))
        (ssig0 f ((schedule f block).getD (t - 15) 0))) ((schedule f block).getD (t - 16) 0) := by
  have hback {k : Nat} (hk : 1 ≤ k) (hk16 : k ≤ 16) :
      wordBack (scheduleBefore f block t) k = (schedule f block).getD (t - k) 0 :=
    wordBack_scheduleBefore f block htc.le hk (hk16.trans ht)
  rw [schedule_getD_eq_nextScheduleWord f block ht htc, nextScheduleWord, hback, hback, hback, hback] <;>
    decide

/-- Settles O17: the length, the loaded words and the recurrence. -/
theorem scheduleFollowsItsRecurrence : Obligations.ScheduleFollowsItsRecurrence :=
  fun f block => ⟨schedule_length f block, fun _ => schedule_getD_of_lt_sixteen f block,
    fun _ => schedule_getD_recurrence f block⟩

/-! ## The rounds (rules R155 to R158) -/

/-- The last of the rounds is one round step, with the constant of its own index. -/
theorem rounds_concat {f : Family} (t : Nat) (ws : List (Word f)) (x : Word f) (v : Working (Word f)) :
    rounds t (ws ++ [x]) v = roundStep (roundConstant f (t + ws.length)) x (rounds t ws v) := by
  induction ws generalizing t v with
  | nil => rfl
  | cons y ws ih =>
    rw [List.cons_append, rounds, ih, rounds, List.length_cons, Nat.add_right_comm, Nat.add_assoc]

/-- The working variables after the first `t` rounds of a compression. -/
def workingAfter (f : Family) (hin : Eight (Word f)) (block : List Byte) (t : Nat) : Working (Word f) :=
  rounds 0 ((schedule f block).take t) (loadWorking hin)

/-- Round `t` uses the constant and the schedule word of index `t` (rule R156). -/
theorem workingAfter_succ (f : Family) (hin : Eight (Word f)) (block : List Byte) {t : Nat}
    (ht : t < roundCount f) :
    workingAfter f hin block (t + 1) =
      roundStep (roundConstant f t) ((schedule f block).getD t 0) (workingAfter f hin block t) := by
  have hlt : t < (schedule f block).length := by rwa [schedule_length]
  rw [workingAfter, ← List.take_concat_get' _ _ hlt, rounds_concat, List.length_take_of_le hlt.le,
    Nat.zero_add, List.getD_eq_getElem _ _ hlt, workingAfter]

/-- `compress` adds the working variables after all the rounds to the incoming chaining value (rule R158). -/
theorem compress_eq_feedForward (f : Family) (hin : Eight (Word f)) (block : List Byte) :
    compress f hin block = feedForward hin (workingAfter f hin block (roundCount f)) := by
  rw [compress, workingAfter, List.take_of_length_le (schedule_length f block).le]

/-- Settles O19: the sequence is the working variables after `t` rounds, and each step of it is one round
step. -/
theorem compressFollowsTheRoundEquations : Obligations.CompressFollowsTheRoundEquations :=
  fun f hin block => ⟨workingAfter f hin block, rfl,
    fun _ ht => ⟨_, _, rfl, rfl, workingAfter_succ f hin block ht⟩, compress_eq_feedForward f hin block⟩

end Sys2Proof.Machine
end

section
/-! The claims about one command each and about the lifecycle table (43_commands.md), with the equations of
the table, the overflow test against the limit, and the parts of the padded tail that they rest on. -/

namespace Sys2Proof.Machine

/-! ## FINALIZE (rules R186, R218) -/

/-- The zero count is rule R211's modulo, read as an integer. -/
theorem zeroCount_cast (f : Family) (n : Nat) :
    (zeroCount f n : Int) =
      ((blockSize f : Int) - lengthFieldBytes f - (n + 1)) % blockSize f := by
  have hpos := blockSize_pos f
  exact Int.toNat_of_nonneg (Int.emod_nonneg _ (by omega))

/-- The padded tail of the first `n` bytes of the buffer, part by part (rule R211). -/
theorem paddedTail_memRead (f : Family) (s : State) (n count : Nat) :
    paddedTail f (memRead s 0 n) count =
      memRead s 0 n ++ [0x80] ++ List.replicate (zeroCount f n) 0x00 ++
        be (lengthFieldBytes f) (8 * count) := by
  simp [paddedTail, padding]

/-- Settles O31: the tail that the model pads and compresses is the one of rule R211. -/
theorem finalizeAnswersTheDigest : Obligations.FinalizeAnswersTheDigest := by
  intro s
  obtain ⟨hactive, hexec⟩ | ⟨hother, hexec⟩ := execFinalize_cases s
  · have hresponses := finishWithDigest_responses s
    rw [finalDigest_length] at hresponses
    exact ⟨fun _ => ⟨finishWithDigest s, _, _, finalDigest s, hexec, zeroCount_cast _ _,
      paddedTail_memRead _ s _ _, rfl, hresponses, rfl, rfl, rfl, rfl, rfl⟩, fun hne => absurd hactive hne⟩
  · exact ⟨fun h => absurd h hother, fun _ => hexec⟩

/-! ## INIT, RESET and STATUS (rules R181, R187, R191) -/

/-- Settles O25: INIT is `initContext` in phase ACTIVE, whose chaining value reads back as written. -/
theorem initStartsAComputation : Obligations.InitStartsAComputation := fun v s =>
  ⟨_, rfl, rfl, readChain_initContext s v, rfl, rfl, rfl, rfl, rfl, rfl, rfl⟩

/-- Settles O32: in its two phases RESET is INIT of the bound variant, so O25 says the rest. -/
theorem resetIsInitOfTheBoundVariant : Obligations.ResetIsInitOfTheBoundVariant := by
  intro s
  obtain ⟨hallowed, hexec⟩ | ⟨hrefused, hexec⟩ := execReset_cases s
  · obtain ⟨t, hinit, hvariant, hchain, hcount, hlen, hphase, herr, hstreams⟩ :=
      initStartsAComputation s.variant s
    have hreset : exec .reset s = .next t := hexec.trans hinit
    exact ⟨fun _ => ⟨t, hreset, hinit, hvariant, hphase, herr, hchain, hcount, hlen, hstreams⟩,
      fun h => by rcases hallowed with ha | ha <;> simp [ha] at h⟩
  · exact ⟨fun h => by rcases hrefused with hr | hr <;> simp [hr] at h, fun _ => hexec⟩

/-- Settles O35: STATUS only responds, and a response touches the response stream alone. -/
theorem statusChangesNothing : Obligations.StatusChangesNothing := fun s =>
  ⟨respond none [] s, rfl, respond_responses s none [], rfl⟩

/-! ## UPDATE (rules R182, R184) -/

/-- The two limits that the rule writes out are the families' largest admissible counts (rule R184). -/
theorem countOverflows_update_iff (p : List Byte) (s : State) :
    CountOverflows (.update p) s ↔
      maxByteCount (familyOf s.variant) < s.byteCounter.toNat + p.length := by
  unfold CountOverflows
  generalize s.byteCounter.toNat = count
  cases familyOf s.variant <;> rfl

/-- Settles O29: the three cases of UPDATE, with the overflow test read as the written limits. -/
theorem updateRaisesUsageThenOverflowElseAbsorbs :
    Obligations.UpdateRaisesUsageThenOverflowElseAbsorbs := by
  intro p s
  rw [countOverflows_update_iff]
  obtain ⟨hactive, hfits, hexec⟩ | ⟨hactive, hover, hexec⟩ | ⟨hother, hexec⟩ := execUpdate_cases p s
  · exact ⟨fun hne => absurd hactive hne, fun _ hover => absurd hover hfits.not_gt,
      fun _ _ => ⟨hexec, (absorb_phase p s).trans hactive, absorb_err p s⟩⟩
  · exact ⟨fun hne => absurd hactive hne, fun _ _ => hexec, fun _ hfits => absurd hover hfits⟩
  · exact ⟨fun _ => hexec, fun h => absurd h hother, fun h => absurd h hother⟩

/-! ## The transition table (rule R195) -/

@[simp] theorem transition_init (ph : Phase) (v : Variant) : transition ph (.init v) = some .active := by
  cases ph <;> rfl

@[simp] theorem transition_update (ph : Phase) (p : List Byte) :
    transition ph (.update p) = if ph = .active then some .active else none := by
  cases ph <;> rfl

@[simp] theorem transition_finalize (ph : Phase) :
    transition ph .finalize = if ph = .active then some .finalized else none := by
  cases ph <;> rfl

@[simp] theorem transition_reset (ph : Phase) :
    transition ph .reset = if ph = .active ∨ ph = .finalized then some .active else none := by
  cases ph <;> rfl

@[simp] theorem transition_digest (ph : Phase) (v : Variant) (p : List Byte) :
    transition ph (.digest v p) = some .finalized := by
  cases ph <;> rfl

@[simp] theorem transition_status (ph : Phase) : transition ph .status = some ph := by
  cases ph <;> rfl

/-- The state `t` is what the table's cell for command `i` and the phase of `s` asks for (rule R195). -/
def MeetsTable (i : Instr) (s t : State) : Prop :=
  (transition s.phase i = none → t = raise .usage s ∧ t.phase = .error) ∧
  (∀ ph, transition s.phase i = some ph →
    (CountOverflows i s ∧ s.phase = .active → t = raise .overflow s ∧ t.phase = .error) ∧
    (¬ (CountOverflows i s ∧ s.phase = .active) → t.phase = ph ∧ ∃ (rlen : Nat) (ws : List Word32),
      t.responses = s.responses ++ statusWord none ph t.variant t.err rlen :: ws))

/-- A cell that names USAGE. -/
theorem raise_usage_meetsTable {i : Instr} {s : State} (hcell : transition s.phase i = none) :
    MeetsTable i s (raise .usage s) :=
  ⟨fun _ => ⟨rfl, rfl⟩, fun _ h => by simp [hcell] at h⟩

/-- A cell that names a phase, for an UPDATE that overflows. -/
theorem raise_overflow_meetsTable {i : Instr} {s : State} {ph : Phase}
    (hcell : transition s.phase i = some ph) (hover : CountOverflows i s) (hactive : s.phase = .active) :
    MeetsTable i s (raise .overflow s) :=
  ⟨fun h => by simp [hcell] at h, fun _ _ => ⟨fun _ => ⟨rfl, rfl⟩, fun h => absurd ⟨hover, hactive⟩ h⟩⟩

/-- A cell that names a phase, for a command that succeeds: it ends with a response of code OK. `t` is what
the command made of `s` before it answered. -/
theorem respond_meetsTable {i : Instr} {s t : State} (bytes : List Byte)
    (hcell : transition s.phase i = some t.phase) (hfits : ¬ CountOverflows i s)
    (hresponses : t.responses = s.responses) : MeetsTable i s (respond none bytes t) := by
  refine ⟨fun h => by simp [hcell] at h, fun ph h => ⟨fun hover => absurd hover.1 hfits, fun _ => ?_⟩⟩
  obtain rfl : t.phase = ph := Option.some.inj (hcell.symm.trans h)
  exact ⟨rfl, bytes.length, packBytes bytes, hresponses ▸ respond_responses t none bytes⟩

/-- Settles O41: command by command, the cases of its meaning are the cells of its row. -/
theorem transitionTable : Obligations.TransitionTable := by
  intro i s
  change ∃ t, exec i s = .next t ∧ MeetsTable i s t
  cases i with
  | init v => exact ⟨_, rfl, respond_meetsTable [] (by simp) id rfl⟩
  | update p =>
    have hover_iff := countOverflows_update_iff p s
    obtain ⟨hactive, hfits, hexec⟩ | ⟨hactive, hover, hexec⟩ | ⟨hother, hexec⟩ := execUpdate_cases p s
    · exact ⟨_, hexec, respond_meetsTable [] (by simp [hactive]) (by rw [hover_iff]; exact hfits.not_gt)
        (absorb_responses p s)⟩
    · exact ⟨_, hexec, raise_overflow_meetsTable (ph := .active) (by simp [hactive]) (hover_iff.mpr hover)
        hactive⟩
    · exact ⟨_, hexec, raise_usage_meetsTable (by simp [hother])⟩
  | finalize =>
    obtain ⟨hactive, hexec⟩ | ⟨hother, hexec⟩ := execFinalize_cases s
    · exact ⟨_, hexec, respond_meetsTable _ (by simp [hactive]) id rfl⟩
    · exact ⟨_, hexec, raise_usage_meetsTable (by simp [hother])⟩
  | reset =>
    obtain ⟨hallowed, hexec⟩ | ⟨hrefused, hexec⟩ := execReset_cases s
    · exact ⟨_, hexec, respond_meetsTable [] (by simp [hallowed]) id rfl⟩
    · exact ⟨_, hexec, raise_usage_meetsTable (by rcases hrefused with h | h <;> simp [h])⟩
  | digest v p => exact ⟨_, rfl, respond_meetsTable _ (by simp) id (absorb_responses p _)⟩
  | status => exact ⟨_, rfl, respond_meetsTable [] (by simp) id rfl⟩

end Sys2Proof.Machine
end

section
/-! The claim about the three parts of the padded tail (44_padding_finalization.md), with the congruence
that its zero count solves. -/

namespace Sys2Proof.Machine

/-- `y` zero bytes end step 2 where the length field begins exactly if `y` is the zero count modulo the
block size (rule R211). -/
theorem tail_mod_blockSize_eq_iff (f : Family) (n y : Nat) :
    (n + 1 + y) % blockSize f = blockSize f - lengthFieldBytes f ↔ y % blockSize f = zeroCount f n := by
  have hcount := zeroCount_cast f n
  cases f <;> simp only [blockSize, lengthFieldBytes] at hcount ⊢ <;> omega

theorem zeroCount_lt_blockSize (f : Family) (n : Nat) : zeroCount f n < blockSize f := by
  have hcount := zeroCount_cast f n
  have hlt := Int.emod_lt_of_pos ((blockSize f : Int) - lengthFieldBytes f - (n + 1))
    (Int.natCast_pos.mpr (blockSize_pos f))
  omega

/-- The padded tail of any buffered bytes, part by part (rule R211). -/
theorem paddedTail_eq_append (f : Family) (buffered : List Byte) (count : Nat) :
    paddedTail f buffered count =
      buffered ++ [0x80] ++ List.replicate (zeroCount f buffered.length) 0x00 ++
        be (lengthFieldBytes f) (8 * count) := by
  simp [paddedTail, padding]

/-- Settles O22: the zero count is a residue, so it is the least solution of its congruence, and the length
field reads back as the number written. -/
theorem paddedTailHasTheThreeParts : Obligations.PaddedTailHasTheThreeParts := by
  intro f buffered count _ hfits
  refine ⟨zeroCount f buffered.length, be (lengthFieldBytes f) (8 * count),
    paddedTail_eq_append f buffered count, ?_, fun y hy => ?_, be_length _ _, fromBe_be _ _ hfits⟩
  · exact (tail_mod_blockSize_eq_iff f _ _).mpr (Nat.mod_eq_of_lt (zeroCount_lt_blockSize f _))
  · rw [← (tail_mod_blockSize_eq_iff f _ y).mp hy]
    exact Nat.mod_le y (blockSize f)

end Sys2Proof.Machine
end

section
/-! The claim about error entry (60_exceptions.md), with the two cases of the cause it leaves in `ERR`. -/

namespace Sys2Proof.Machine

/-- Outside phase ERROR the new cause is recorded (rule R236). -/
theorem raise_err_of_phase_ne_error {s : State} (x : Cause) (hphase : s.phase ≠ .error) :
    (raise x s).err = some x := by
  rw [raise_err, if_neg hphase]

/-- In phase ERROR the first cause is kept (rule R236). -/
theorem raise_err_of_phase_eq_error {s : State} (x : Cause) (hphase : s.phase = .error) :
    (raise x s).err = s.err := by
  rw [raise_err, if_pos hphase]

/-- Settles O42: each clause is what `raise` leaves in one register or stream; `ERR` has two cases. -/
theorem errorEntry : Obligations.ErrorEntry := fun x s =>
  ⟨raise_phase s x, raise_err_of_phase_ne_error x, raise_err_of_phase_eq_error x, raise_variant s x,
    raise_responses s x, raise_commands s x, raise_resetInput s x⟩

end Sys2Proof.Machine
end

section
/-! The claims about decoding what was encoded and encoding what was decoded (30_encoding.md), and about the
step on an encoded command. -/

namespace Sys2Proof

/-! ## Decoding a whole frame -/

/-- A whole frame at the front of a stream is decoded, and the words after it are left (rule R80). -/
theorem decodeStream_cons (header : Word32) (payload rest : List Word32)
    (hlength : payload.length = payloadWordCount header) :
    decodeStream (header :: (payload ++ rest)) = some (decodeFrame header payload, rest) := by
  rw [decodeStream, takeFrame_cons _ _ _ hlength, Option.map_some]

/-- Every well-formed command is encoded as one whole frame (rule R80). -/
theorem encode_framed (i : Instr) : Laws.EncodeFramed.Statement i := by
  cases i with
  | init v => exact Laws.EncodeFramed.init v
  | update p => exact Laws.EncodeFramed.update p
  | finalize => exact Laws.EncodeFramed.finalize
  | reset => exact Laws.EncodeFramed.reset
  | digest v p => exact Laws.EncodeFramed.digest v p
  | status => exact Laws.EncodeFramed.status

/-- The frame of a command whose `len` field holds the payload's length decodes to the command. -/
theorem decodeFrame_of_encode_eq {i : Instr} {header : Word32}
    (hencode : encode i = header :: packBytes i.payload) (hlen : (headerLen header).toNat = i.payload.length) :
    decodeFrame header (packBytes i.payload) = some i := by
  have hunpack : unpackBytes (headerLen header).toNat (packBytes i.payload) = i.payload := by
    rw [hlen, unpackBytes_packBytes]
  rw [decodeFrame_eq_some, hunpack]
  cases i <;> obtain ⟨rfl, -⟩ := List.cons.inj hencode <;> simp [Instr.payload]

/-- A well-formed command is read back from its frame (rules R80, R83, R86). -/
theorem decodeStream_encode {i : Instr} (hwf : i.wellFormed = true) (rest : List Word32) :
    decodeStream (encode i ++ rest) = some (some i, rest) := by
  obtain ⟨header, hencode, hlen, hcount⟩ := encode_framed i hwf
  rw [hencode, List.cons_append, decodeStream_cons _ _ _ hcount, decodeFrame_of_encode_eq hencode hlen]

/-- Settles O3: a command's frame is taken whole from the stream, and its fields and bytes are the command's. -/
theorem decodeOfEncodeIsTheCommand : Obligations.DecodeOfEncodeIsTheCommand :=
  fun _ rest hwf => decodeStream_encode hwf rest

/-! ## Legal headers and the encoding of what was decoded -/

/-- Settles O1: the decoder reads some command exactly from a legal header. -/
theorem headerDecodesExactlyWhenLegal : Obligations.HeaderDecodesExactlyWhenLegal := fun _ _ =>
  Option.isSome_iff_exists.trans exists_decodeFrame_iff_legalHeader

/-- A header word with `rsv` zero is built from its other three fields (rule R81). -/
theorem headerWord_of_fields {header : Word32} {opcode : BitVec 8} {v : BitVec 3} {len : BitVec 16}
    (hrsv : headerRsv header = 0) (hopcode : headerOpcode header = opcode) (hv : headerV header = v)
    (hlen : headerLen header = len) : headerWord opcode v len = header := by
  rw [eq_iff_header_fields, headerOpcode_headerWord, headerRsv_headerWord, headerV_headerWord,
    headerLen_headerWord]
  exact ⟨hopcode.symm, hrsv.symm, hv.symm, hlen.symm⟩

/-- The bytes of a whole frame are as many as its `len` field says (rule R80). -/
theorem unpackBytes_headerLen_length {header : Word32} {payload : List Word32}
    (hlength : payload.length = payloadWordCount header) :
    (unpackBytes (headerLen header).toNat payload).length = (headerLen header).toNat :=
  unpackBytes_length (by rw [hlength, payloadWordCount]; omega)

theorem headerLen_le_maxLen (header : Word32) : (headerLen header).toNat ≤ Config.maxLen := by
  have := (headerLen header).isLt
  unfold Config.maxLen
  omega

/-- Settles O4: the decoded command's operands are the header's fields, so its encoding has that header. -/
theorem encodeOfDecodedHasTheSameHeader : Obligations.EncodeOfDecodedHasTheSameHeader := by
  intro header payload i hlength hdecode
  have hbytes := unpackBytes_headerLen_length hlength
  have hmax := headerLen_le_maxLen header
  have hlen : headerLen header = BitVec.ofNat 16 (unpackBytes (headerLen header).toNat payload).length := by
    rw [hbytes, BitVec.ofNat_toNat, BitVec.setWidth_eq]
  have hnone (hzero : headerLen header = 0) : [] = unpackBytes (headerLen header).toNat payload := by
    rw [hzero]; rfl
  obtain ⟨hrsv, hfields⟩ := decodeFrame_eq_some.mp hdecode
  cases i with
  | init v =>
    obtain ⟨hopcode, hv, hzero⟩ := hfields
    exact ⟨rfl, congrArg ([·]) (headerWord_of_fields hrsv hopcode hv hzero), hnone hzero⟩
  | update p =>
    obtain ⟨hopcode, hv, rfl⟩ := hfields
    exact ⟨decide_eq_true (hbytes.trans_le hmax),
      congrArg (· :: _) (headerWord_of_fields hrsv hopcode hv hlen), rfl⟩
  | finalize =>
    obtain ⟨hopcode, hv, hzero⟩ := hfields
    exact ⟨rfl, congrArg ([·]) (headerWord_of_fields hrsv hopcode hv hzero), hnone hzero⟩
  | reset =>
    obtain ⟨hopcode, hv, hzero⟩ := hfields
    exact ⟨rfl, congrArg ([·]) (headerWord_of_fields hrsv hopcode hv hzero), hnone hzero⟩
  | digest v p =>
    obtain ⟨hopcode, hv, rfl⟩ := hfields
    exact ⟨decide_eq_true (hbytes.trans_le hmax),
      congrArg (· :: _) (headerWord_of_fields hrsv hopcode hv hlen), rfl⟩
  | status =>
    obtain ⟨hopcode, hv, hzero⟩ := hfields
    exact ⟨rfl, congrArg ([·]) (headerWord_of_fields hrsv hopcode hv hzero), hnone hzero⟩

/-- Settles O7: eleven closed words, evaluated. -/
theorem sampleWordsDecode : Obligations.SampleWordsDecode := by
  unfold Obligations.SampleWordsDecode
  decide

end Sys2Proof

namespace Sys2Proof.Machine

/-- Settles O8: the last field holds `rlen` whole, because it has 8 bits. -/
theorem statusWordHasFormatS : Obligations.StatusWordHasFormatS := by
  intro code cause ph v rlen hrlen
  obtain ⟨fcode, fphase, fvariant, fcause, fzero, flen⟩ := statusWord_fields code cause ph v rlen
  refine ⟨fcode, fphase, fvariant, fcause, fzero, ?_⟩
  rw [flen, BitVec.toNat_ofNat, Nat.mod_eq_of_lt hrlen]

/-! ## What a step does, by what the command stream begins with -/

/-- An asserted reset input comes before the command stream (rule R260). -/
theorem step_of_resetInput {s : State} (hreset : s.resetInput = true) : step s = .next (hardwareReset s) := by
  rw [step, if_pos hreset]

/-- No whole frame: the engine waits (rule R264). -/
theorem step_of_noFrame {s : State} (hreset : s.resetInput = false) (hframe : decodeStream s.commands = none) :
    step s = .next s := by
  simp [step, hreset, hframe]

/-- An illegal frame (rule R234). -/
theorem step_of_illegalFrame {s : State} {rest : List Word32} (hreset : s.resetInput = false)
    (hframe : decodeStream s.commands = some (none, rest)) :
    step s = .next (raise .illegal { s with commands := rest }) := by
  simp [step, hreset, hframe]

/-- A frame that decodes to a command (rule R180). -/
theorem step_of_command {s : State} {i : Instr} {rest : List Word32} (hreset : s.resetInput = false)
    (hframe : decodeStream s.commands = some (some i, rest)) :
    step s = exec i { s with commands := rest } := by
  simp [step, hreset, hframe]

/-- The step on a well-formed command's frame executes the command. -/
theorem step_of_encode {s : State} {i : Instr} {rest : List Word32} (hreset : s.resetInput = false)
    (hwf : i.wellFormed = true) (hcommands : s.commands = encode i ++ rest) :
    step s = exec i { s with commands := rest } :=
  step_of_command hreset (hcommands ▸ decodeStream_encode hwf rest)

/-- Settles O47: the step follows the decoder, and the decoder follows the encoder. -/
theorem stepRunsTheDecodedCommand : Obligations.StepRunsTheDecodedCommand :=
  ⟨fun _ _ _ _ _ hreset hcommands hlength hdecode =>
      step_of_command hreset (by rw [hcommands, decodeStream_cons _ _ _ hlength, hdecode]),
    fun _ _ _ hreset hwf hcommands => step_of_encode hreset hwf hcommands⟩

/-- A stream that is empty, or that lacks words its first header asks for, has no frame (rule R264). -/
theorem decodeStream_eq_none {ws : List Word32} (hshort : ws = [] ∨ ∃ header tail, ws = header :: tail ∧
    tail.length < payloadWordCount header) : decodeStream ws = none := by
  obtain rfl | ⟨header, tail, rfl, hlt⟩ := hshort
  · rfl
  · rw [decodeStream, takeFrame, splitWords_eq, if_neg hlt.not_ge, Option.map_none, Option.map_none]

/-- Settles O48: without a whole frame there is nothing to decode. -/
theorem withoutAWholeFrameTheEngineWaits : Obligations.WithoutAWholeFrameTheEngineWaits :=
  fun _ hreset hshort => step_of_noFrame hreset (decodeStream_eq_none hshort)

end Sys2Proof.Machine
end

section
/-! The claims about whole messages (43_commands.md, 44_padding_finalization.md): the equations of the commands
case by case, what a list of UPDATEs does, and the run of the words of a list of commands. -/

namespace Sys2Proof.Machine

/-! ## The commands' equations -/

/-- The context after INIT, before the response (rule R181). -/
def started (v : Variant) (s : State) : State := { initContext v s with phase := .active }

theorem exec_init (v : Variant) (s : State) : exec (.init v) s = .next (respond none [] (started v s)) := rfl

/-- RESET in phase ACTIVE or FINALIZED is INIT of the bound variant (rule R187). -/
theorem exec_reset_of_allowed {s : State} (hallowed : s.phase = .active ∨ s.phase = .finalized) :
    exec .reset s = exec (.init s.variant) s := by
  obtain ⟨-, hexec⟩ | ⟨hrefused, -⟩ := execReset_cases s
  · exact hexec
  · rcases hallowed with ha | ha <;> simp [ha] at hrefused

theorem exec_reset_of_refused {s : State} (hrefused : s.phase = .empty ∨ s.phase = .error) :
    exec .reset s = .next (raise .usage s) :=
  (resetIsInitOfTheBoundVariant s).2 hrefused

theorem exec_finalize_of_active {s : State} (hactive : s.phase = .active) :
    exec .finalize s = .next (finishWithDigest s) := by
  obtain ⟨-, hexec⟩ | ⟨hother, -⟩ := execFinalize_cases s
  · exact hexec
  · exact absurd hactive hother

theorem exec_finalize_of_not_active {s : State} (hother : s.phase ≠ .active) :
    exec .finalize s = .next (raise .usage s) :=
  (finalizeAnswersTheDigest s).2 hother

theorem exec_update_of_not_active (p : List Byte) {s : State} (hother : s.phase ≠ .active) :
    exec (.update p) s = .next (raise .usage s) :=
  (updateRaisesUsageThenOverflowElseAbsorbs p s).1 hother

theorem exec_update_of_overflow {p : List Byte} {s : State} (hactive : s.phase = .active)
    (hover : maxByteCount (familyOf s.variant) < s.byteCounter.toNat + p.length) :
    exec (.update p) s = .next (raise .overflow s) := by
  obtain ⟨-, hoverflow, -⟩ := updateRaisesUsageThenOverflowElseAbsorbs p s
  exact hoverflow hactive ((countOverflows_update_iff p s).mpr hover)

theorem exec_update_of_fits {p : List Byte} {s : State} (hactive : s.phase = .active)
    (hfits : s.byteCounter.toNat + p.length ≤ maxByteCount (familyOf s.variant)) :
    exec (.update p) s = .next (respond none [] (absorb p s)) := by
  obtain ⟨-, -, habsorb⟩ := updateRaisesUsageThenOverflowElseAbsorbs p s
  obtain ⟨hexec, -⟩ := habsorb hactive fun hover => ((countOverflows_update_iff p s).mp hover).not_ge hfits
  exact hexec

/-! ## States that differ in a stream -/

/-- The state with other words in the command stream. -/
def withCommands (ws : List Word32) (s : State) : State := { s with commands := ws }

/-- The state with other words in the response stream. -/
def withResponses (ws : List Word32) (s : State) : State := { s with responses := ws }

@[simp] theorem withResponses_responses (ws : List Word32) (s : State) :
    (withResponses ws s).responses = ws := rfl

@[simp] theorem withResponses_withResponses (ws xs : List Word32) (s : State) :
    withResponses ws (withResponses xs s) = withResponses ws s := rfl

theorem absorb_withPhase (p : List Byte) (s : State) (ph : Phase) :
    absorb p { s with phase := ph } = { absorb p s with phase := ph } :=
  (absorb_outer p s ph s.err s.commands s.responses s.resetInput).trans (by simp)

theorem absorb_withCommands (p : List Byte) (ws : List Word32) (s : State) :
    absorb p (withCommands ws s) = withCommands ws (absorb p s) :=
  (absorb_outer p s s.phase s.err ws s.responses s.resetInput).trans (by simp [withCommands])

theorem absorb_withResponses (p : List Byte) (ws : List Word32) (s : State) :
    absorb p (withResponses ws s) = withResponses ws (absorb p s) :=
  (absorb_outer p s s.phase s.err s.commands ws s.resetInput).trans (by simp [withResponses])

theorem absorb_respond (p : List Byte) (code : Option Cause) (bytes : List Byte) (s : State) :
    absorb p (respond code bytes s) = withResponses (respond code bytes s).responses (absorb p s) :=
  absorb_withResponses p _ s

/-- DIGEST is INIT's context, the payload absorbed, and `finalize()` (rule R190). -/
theorem exec_digest (v : Variant) (p : List Byte) (s : State) :
    exec (.digest v p) s = .next (finishWithDigest (absorb p (started v s))) := by
  rw [started, absorb_withPhase]
  rfl

/-- A command that ran with one command stream runs alike with another, which it leaves alone. -/
theorem exec_withCommands {i : Instr} {s t : State} (ws : List Word32) (hexec : exec i s = .next t) :
    exec i (withCommands ws s) = .next (withCommands ws t) := by
  cases i with
  | init v => cases hexec; rfl
  | update p =>
    obtain ⟨hactive, hfits, h⟩ | ⟨hactive, hover, h⟩ | ⟨hother, h⟩ := execUpdate_cases p s <;>
      cases h.symm.trans hexec
    · rw [exec_update_of_fits (s := withCommands ws s) hactive hfits, absorb_withCommands]
      rfl
    · exact exec_update_of_overflow (s := withCommands ws s) hactive hover
    · exact exec_update_of_not_active p (s := withCommands ws s) hother
  | finalize =>
    obtain ⟨hactive, h⟩ | ⟨hother, h⟩ := execFinalize_cases s <;> cases h.symm.trans hexec
    · exact exec_finalize_of_active (s := withCommands ws s) hactive
    · exact exec_finalize_of_not_active (s := withCommands ws s) hother
  | reset =>
    obtain ⟨hallowed, h⟩ | ⟨hrefused, h⟩ := execReset_cases s <;> cases h.symm.trans hexec
    · exact exec_reset_of_allowed (s := withCommands ws s) hallowed
    · exact exec_reset_of_refused (s := withCommands ws s) hrefused
  | digest v p =>
    rw [exec_digest] at hexec ⊢
    cases hexec
    rw [show started v (withCommands ws s) = withCommands ws (started v s) from rfl, absorb_withCommands]
    rfl
  | status => cases hexec; rfl

/-! ## UPDATE in phase ACTIVE (rules R182, R183, R185) -/

/-- An UPDATE that fits leaves the state that absorbing leaves, with one OK status as its response. -/
theorem exec_update_eq_absorb {p : List Byte} {s : State} (hactive : s.phase = .active)
    (hfits : s.byteCounter.toNat + p.length ≤ maxByteCount (familyOf s.variant)) :
    exec (.update p) s =
      .next (withResponses (s.responses ++ [statusWord none .active s.variant s.err 0]) (absorb p s)) := by
  have hresponses : (respond none [] (absorb p s)).responses =
      s.responses ++ [statusWord none .active s.variant s.err 0] := by simp [hactive, packBytes]
  rw [exec_update_of_fits hactive hfits, ← hresponses]
  rfl

/-- Settles O26: the counters after absorbing, and what absorbing leaves alone. -/
theorem updateCountsItsPayload : Obligations.UpdateCountsItsPayload := fun p s hactive hfits =>
  ⟨_, exec_update_eq_absorb hactive hfits, absorb_byteCounter_of_le p s hfits, absorb_bufLen p s,
    absorb_variant p s, (absorb_phase p s).trans hactive, absorb_err p s, rfl, absorb_commands p s,
    absorb_resetInput p s⟩

/-- A list of commands whose first one completes. -/
theorem execAll_cons_of_next {i : Instr} {s t : State} (is : List Instr) (hexec : exec i s = .next t) :
    execAll (i :: is) s = execAll is t := by
  rw [execAll, hexec]

/-- A list of commands whose first part completes. -/
theorem execAll_append_of_next {is : List Instr} {s t : State} (js : List Instr)
    (hexec : execAll is s = .next t) : execAll (is ++ js) s = execAll js t := by
  induction is generalizing s with
  | nil => cases hexec; rfl
  | cons i is ih =>
    obtain ⟨u, hu, -⟩ := exec_answersFrame i s
    rw [execAll_cons_of_next is hu] at hexec
    rw [List.cons_append, execAll_cons_of_next _ hu, ih hexec]

/-- However a message is cut, its UPDATEs leave the state that absorbing all of it leaves, with one OK
status for each (rule R185). -/
theorem execAll_updates (chunks : List (List Byte)) {s : State} (hactive : s.phase = .active)
    (hfits : s.byteCounter.toNat + chunks.flatten.length ≤ maxByteCount (familyOf s.variant)) :
    execAll (chunks.map .update) s = .next (withResponses
      (s.responses ++ List.replicate chunks.length (statusWord none .active s.variant s.err 0))
      (absorb chunks.flatten s)) := by
  induction chunks generalizing s with
  | nil => simp [execAll, absorb, withResponses]
  | cons p chunks ih =>
    rw [List.flatten_cons, List.length_append, ← Nat.add_assoc] at hfits
    have hfitsHead : s.byteCounter.toNat + p.length ≤ maxByteCount (familyOf s.variant) := by omega
    have hcount := absorb_byteCounter_of_le p s hfitsHead
    rw [List.map_cons, execAll_cons_of_next _ (exec_update_eq_absorb hactive hfitsHead), ih,
      absorb_withResponses, List.flatten_cons, absorb_append]
    · simp [withResponses, List.replicate_succ]
    · exact (absorb_phase p s).trans hactive
    · simpa [withResponses, hcount] using hfits

/-- Settles O30: both sides are the absorption of `p ++ q`. -/
theorem cuttingAMessageChangesNothing : Obligations.CuttingAMessageChangesNothing := by
  intro p q s hactive hfits
  have hflat : [p, q].flatten = p ++ q := by simp
  have htwo := execAll_updates [p, q] hactive (by rwa [hflat, List.length_append])
  rw [hflat] at htwo
  exact ⟨_, _, exec_update_eq_absorb hactive (by rwa [List.length_append]), htwo, rfl⟩

/-! ## The long UPDATE (rule R91) -/

/-- The payloads of the UPDATE commands that a long UPDATE stands for. -/
def updateChunks (p : List Byte) : List (List Byte) :=
  if p.length ≤ Config.maxLen then [p] else slices ((p.length + (Config.maxLen - 1)) / Config.maxLen) p

theorem expandUpdate_eq_map (p : List Byte) : expandUpdate p = (updateChunks p).map .update := by
  unfold expandUpdate updateChunks
  split <;> rfl

@[simp] theorem slices_length (n : Nat) (p : List Byte) : (slices n p).length = n := by
  induction n generalizing p with
  | zero => rfl
  | succ n ih => rw [slices, List.length_cons, ih]

/-- Slices enough for all the bytes are all the bytes in order. -/
theorem slices_flatten {n : Nat} {p : List Byte} (hn : p.length ≤ n * Config.maxLen) :
    (slices n p).flatten = p := by
  induction n generalizing p with
  | zero => exact (List.length_eq_zero_iff.mp (by omega)).symm
  | succ n ih =>
    rw [Nat.succ_mul] at hn
    rw [slices, List.flatten_cons, ih (by rw [List.length_drop]; omega), List.take_append_drop]

theorem length_le_of_mem_slices {n : Nat} {p q : List Byte} (hq : q ∈ slices n p) :
    q.length ≤ Config.maxLen := by
  induction n generalizing p with
  | zero => simp [slices] at hq
  | succ n ih =>
    obtain rfl | hq := List.mem_cons.mp hq
    · exact List.length_take_le _ _
    · exact ih hq

theorem updateChunks_flatten (p : List Byte) : (updateChunks p).flatten = p := by
  unfold updateChunks
  split
  · exact List.flatten_singleton
  · exact slices_flatten (by unfold Config.maxLen; omega)

theorem length_le_of_mem_updateChunks {p q : List Byte} (hq : q ∈ updateChunks p) :
    q.length ≤ Config.maxLen := by
  unfold updateChunks at hq
  split at hq
  · rwa [List.mem_singleton.mp hq]
  · exact length_le_of_mem_slices hq

/-- Settles O40: the commands are UPDATEs of chunks of `p`, whose effect is that of absorbing `p`. -/
theorem longUpdateExpands : Obligations.LongUpdateExpands := by
  intro p s hactive hfits
  rw [expandUpdate_eq_map]
  refine ⟨?_, ?_, fun hlong => ?_, _, execAll_updates _ hactive (by rwa [updateChunks_flatten]), ?_⟩
  · intro i hi
    obtain ⟨q, hq, rfl⟩ := List.mem_map.mp hi
    exact decide_eq_true (length_le_of_mem_updateChunks hq)
  · rw [List.flatMap_map]
    exact List.flatMap_id.trans (updateChunks_flatten p)
  · rw [List.length_map, updateChunks, if_neg (by unfold Config.maxLen; omega), slices_length]
    rfl
  · rw [updateChunks_flatten, ← absorb_responses p s]
    rfl

/-! ## The message held (rule R28) -/

theorem started_holds (v : Variant) (s : State) : Holds v [] (started v s) :=
  initContext_holds v { s with phase := .active } rfl

theorem Holds.active {v : Variant} {m : List Byte} {s : State} (h : Holds v m s) : s.phase = .active := h.1

theorem Holds.variant_eq {v : Variant} {m : List Byte} {s : State} (h : Holds v m s) : s.variant = v := h.2.1

/-- What a context holds does not depend on the responses. -/
theorem Holds.withResponses {v : Variant} {m : List Byte} {s : State} (ws : List Word32) (h : Holds v m s) :
    Holds v m (withResponses ws s) := h

theorem Holds.fits {v : Variant} {m : List Byte} {s : State} (h : Holds v m s) {n : Nat}
    (hn : m.length + n ≤ maxByteCount (familyOf v)) :
    s.byteCounter.toNat + n ≤ maxByteCount (familyOf s.variant) := by
  obtain ⟨-, hv, -, hcount, -⟩ := h
  rwa [hcount, hv]

/-- Settles O36: UPDATE absorbs, and absorbing appends to the message held. -/
theorem updateAppendsToTheMessage : Obligations.UpdateAppendsToTheMessage := fun _ _ p _ h hn =>
  ⟨_, exec_update_eq_absorb h.active (h.fits hn), absorb_holds p h hn⟩

/-- The response frame that answers a computation: the status word and the digest of the message. -/
def digestFrame (v : Variant) (m : List Byte) : List Word32 :=
  statusWord none .finalized v none (digestLength v) :: packBytes (messageDigest v m)

/-- `finalize()` answers the digest of the message held (rules R210 to R218). -/
theorem Holds.finishWithDigest_responses {v : Variant} {m : List Byte} {s : State} (h : Holds v m s) :
    (finishWithDigest s).responses = s.responses ++ digestFrame v m := by
  have hlength := finalDigest_length s
  have hdigest := h.finalDigest
  obtain ⟨-, rfl, herr, -⟩ := h
  rw [Machine.finishWithDigest_responses, hlength, hdigest, herr, digestFrame]

/-- Settles O37: FINALIZE runs `finalize()`. -/
theorem finalizeAnswersTheMessageDigest : Obligations.FinalizeAnswersTheMessageDigest := fun _ _ _ h =>
  ⟨_, exec_finalize_of_active h.active, rfl, h.finishWithDigest_responses⟩

/-- A payload that one command can carry is far from the limit on the byte count. -/
theorem le_maxByteCount {n : Nat} (f : Family) (hn : n ≤ 65535) : n ≤ maxByteCount f := by
  have hlimit : 65535 ≤ maxByteCount f := by cases f <;> decide
  exact hn.trans hlimit

/-- Settles O34: the context that DIGEST finalises holds its payload. -/
theorem digestAnswersTheMessageDigest : Obligations.DigestAnswersTheMessageDigest := by
  intro v p s hp
  have hholds : Holds v p (absorb p (started v s)) :=
    absorb_holds p (started_holds v s) (by simpa using le_maxByteCount _ hp)
  refine ⟨_, exec_digest v p s, ?_, absorb_commands p _, absorb_resetInput p _⟩
  rw [hholds.finishWithDigest_responses, absorb_responses]
  rfl

/-- A whole computation: INIT, one UPDATE for each chunk, FINALIZE. -/
def hashProgram (v : Variant) (chunks : List (List Byte)) : List Instr :=
  .init v :: (chunks.map .update ++ [.finalize])

/-- A whole computation, in every state, answers an OK status for INIT and each UPDATE, and the digest of
the message (rule R193). -/
theorem execAll_hashProgram (v : Variant) (chunks : List (List Byte)) (s : State)
    (hfits : chunks.flatten.length ≤ maxByteCount (familyOf v)) :
    ∃ t, execAll (hashProgram v chunks) s = .next t ∧
      t.responses = s.responses ++
        List.replicate (chunks.length + 1) (statusWord none .active v none 0) ++
          digestFrame v chunks.flatten ∧
      t.phase = .finalized ∧ t.variant = v ∧ t.commands = s.commands := by
  have hinit : Holds v [] (respond none [] (started v s)) := started_holds v s
  have hn : ([] : List Byte).length + chunks.flatten.length ≤ maxByteCount (familyOf v) := by simpa using hfits
  have hupdates := execAll_updates chunks hinit.active (hinit.fits hn)
  have hholds := (absorb_holds chunks.flatten hinit hn).withResponses
    ((respond none [] (started v s)).responses ++
      List.replicate chunks.length (statusWord none .active v none 0))
  have hfinalize := exec_finalize_of_active hholds.active
  refine ⟨_, ?_, hholds.finishWithDigest_responses.trans ?_, rfl, hholds.variant_eq, absorb_commands _ _⟩
  · rw [hashProgram, execAll_cons_of_next _ (exec_init v s), execAll_append_of_next _ hupdates]
    exact execAll_cons_of_next [] hfinalize
  · simp [started, packBytes, List.replicate_succ]

/-- RESET in phase FINALIZED starts a program as INIT of the bound variant does. -/
theorem execAll_reset_cons {v : Variant} {s : State} (is : List Instr) (hphase : s.phase = .finalized)
    (hvariant : s.variant = v) : execAll (.reset :: is) s = execAll (.init v :: is) s := by
  rw [execAll, execAll, exec_reset_of_allowed (.inr hphase), hvariant]

/-- Settles O39: RESET starts a whole computation, which answers what every computation of its message does. -/
theorem resetMakesTheContextFresh : Obligations.ResetMakesTheContextFresh := by
  intro v x s hx
  have hfits : [x].flatten.length ≤ maxByteCount (familyOf v) := by simpa using le_maxByteCount _ hx
  obtain ⟨t, hfirst, hresponses, hphase, hvariant, -⟩ := execAll_hashProgram v [x] s hfits
  obtain ⟨t', hagain, hresponses', -⟩ := execAll_hashProgram v [x] t hfits
  obtain ⟨t₀, hnone, hresponses₀, -⟩ := execAll_hashProgram v [] t (Nat.zero_le _)
  obtain ⟨u, hempty, hresponsesU, -⟩ := execAll_hashProgram v [] s (Nat.zero_le _)
  have hthen (is : List Instr) :
      execAll (hashProgram v [x] ++ .reset :: is) s = execAll (.init v :: is) t := by
    rw [execAll_append_of_next _ hfirst, execAll_reset_cons is hphase hvariant]
  rw [List.flatten_singleton] at hresponses hresponses'
  constructor
  · refine ⟨t', List.replicate 2 (statusWord none .active v none 0), digestFrame v x,
      (hthen [.update x, .finalize]).trans hagain, ?_, rfl⟩
    rw [hresponses', hresponses]
    simp
  · refine ⟨t₀, u, List.replicate 2 (statusWord none .active v none 0) ++ digestFrame v x ++
      [statusWord none .active v none 0], digestFrame v [], (hthen [.finalize]).trans hnone, hempty, ?_,
      hresponsesU⟩
    rw [hresponses₀, hresponses]
    simp

/-- Settles O33: the statuses of INIT and UPDATE go to the response stream, which `finalize()` does not read. -/
theorem digestIsInitUpdateFinalize : Obligations.DigestIsInitUpdateFinalize := by
  intro v p s hp
  have hn : ([] : List Byte).length + p.length ≤ maxByteCount (familyOf v) := by
    simpa using le_maxByteCount _ hp
  have hholds : Holds v p (absorb p (started v s)) := absorb_holds p (started_holds v s) hn
  have hinit : Holds v [] (respond none [] (started v s)) := started_holds v s
  have hupdate := exec_update_eq_absorb hinit.active (hinit.fits hn)
  rw [absorb_respond, withResponses_withResponses] at hupdate
  have hsequence := (execAll_cons_of_next [.update p, .finalize] (exec_init v s)).trans
    ((execAll_cons_of_next [.finalize] hupdate).trans
      (execAll_cons_of_next [] (exec_finalize_of_active (hholds.withResponses _).active)))
  refine ⟨_, _, digestFrame v p, exec_digest v p s, hsequence, rfl, ?_,
    (hholds.withResponses _).finishWithDigest_responses.trans ?_, rfl, hholds.variant_eq, absorb_err p _⟩
  · rw [hholds.finishWithDigest_responses, absorb_responses]
    rfl
  · simp [withResponses, started, packBytes]

/-! ## The words of a program (rules R80, R193) -/

/-- A run that begins with a step. -/
theorem run_succ_of_step {M : Host.Core} {s t : M.State} (n : Nat) (hstep : M.step s = .next t) :
    M.run (n + 1) s = M.run n t := by
  rw [Host.Core.run, hstep]

/-- An idle engine that is sent the words of some commands executes them one after another. -/
theorem run_hostSend_encode {is : List Instr} {s t : State} (hreset : s.resetInput = false)
    (hidle : s.commands = []) (hwf : ∀ i ∈ is, i.wellFormed = true) (hexec : execAll is s = .next t) :
    core.run is.length (hostSend (is.flatMap encode) s) = .next t := by
  induction is generalizing s with
  | nil =>
    rw [List.flatMap_nil, hostSend, List.append_nil]
    exact hexec
  | cons i is ih =>
    obtain ⟨u, hu, code, bytes, ⟨hcommands, hresetU, -⟩, -⟩ := exec_answersFrame i s
    rw [execAll_cons_of_next is hu] at hexec
    have hidleU : u.commands = [] := hcommands.trans hidle
    have hwords : (hostSend ((i :: is).flatMap encode) s).commands = encode i ++ is.flatMap encode := by
      simp [hidle]
    have hstep : step (hostSend ((i :: is).flatMap encode) s) = .next (hostSend (is.flatMap encode) u) := by
      rw [step_of_encode (s := hostSend _ s) hreset (hwf i List.mem_cons_self) hwords,
        show hostSend (is.flatMap encode) u = withCommands (is.flatMap encode) u by
          rw [hostSend, hidleU, List.nil_append, withCommands]]
      exact exec_withCommands (s := s) _ hu
    have hrun := ih (hresetU.trans hreset) hidleU (fun j hj => hwf j (List.mem_cons_of_mem i hj)) hexec
    exact (run_succ_of_step (M := core) _ hstep).trans hrun

/-- Settles O38: the words sent are those of a whole computation. -/
theorem engineHashesEveryMessage : Obligations.EngineHashesEveryMessage := by
  intro v chunks s hreset hcommands hchunks hfits
  obtain ⟨t, hexec, hresponses, hphase, -, hstream⟩ := execAll_hashProgram v chunks s hfits
  have hwords : (hashProgram v chunks).flatMap encode =
      encode (.init v) ++ chunks.flatMap (fun p => encode (.update p)) ++ encode .finalize := by
    simp [hashProgram, List.flatMap_map]
  have hlength : (hashProgram v chunks).length = chunks.length + 2 := by simp [hashProgram]
  have hwf : ∀ i ∈ hashProgram v chunks, i.wellFormed = true := by
    change ∀ p ∈ chunks, p.length ≤ Config.maxLen at hchunks
    simpa [hashProgram, Instr.wellFormed, or_imp, forall_and] using hchunks
  refine ⟨t, ?_, hresponses, hstream.trans hcommands, hphase⟩
  rw [← hwords, ← hlength]
  exact run_hostSend_encode hreset hcommands hwf hexec

end Sys2Proof.Machine
end

section
/-! The claims about what one UPDATE does to the buffer and to `H` (43_commands.md section 3). -/

namespace Sys2Proof.Machine

/-! ## UPDATEs that fill no block -/

/-- A read after one byte was buffered: the byte at its index, the old bytes elsewhere. -/
theorem readByte_of_buffer_eq {s t : State} {i : Nat} {b : Byte} (hwf : Memory.wf s.buffer)
    (hbuffer : t.buffer = memoryWrite s.buffer i b) (hdraws : t.draws = s.draws) (a : Nat) :
    readByte t a = if a = i then b else readByte s a := by
  rw [readByte, hbuffer, hdraws, memoryRead_memoryWrite _ _ _ _ hwf.1]
  by_cases ha : a = i
  · simp [ha]
  · simp [ha, readByte]

/-- Bytes that fill no block are stored from index `buf_len` on, and nothing else is touched. -/
theorem absorb_short {p : List Byte} {s : State} (hwf : Memory.wf s.buffer)
    (hshort : s.bufLen.toNat + p.length < blockSize (familyOf s.variant)) :
    (∀ a, readByte (absorb p s) a =
      if s.bufLen.toNat ≤ a ∧ a < s.bufLen.toNat + p.length then p.getD (a - s.bufLen.toNat) 0
      else readByte s a) ∧
    (absorb p s).h = s.h ∧ (absorb p s).datapath = s.datapath ∧ (absorb p s).draws = s.draws := by
  induction p generalizing s with
  | nil => exact ⟨fun a => by rw [if_neg (by simp)]; rfl, rfl, rfl, rfl⟩
  | cons b p ih =>
    rw [List.length_cons] at hshort
    have hlen := absorbByte_bufLen s b (by omega)
    rw [Nat.mod_eq_of_lt (by omega)] at hlen
    have hwf' : Memory.wf (absorbByte s b).buffer := absorb_wf [b] hwf
    obtain ⟨hread, hh, hdatapath, hdraws⟩ := ih hwf' (by rw [hlen, absorbByte_variant]; omega)
    obtain ⟨-, hbyte⟩ | ⟨hfull, -⟩ := absorbByte_cases s b
    · have hbuffered := readByte_of_buffer_eq (t := absorbByte s b) (b := b) (i := s.bufLen.toNat) hwf
        (by rw [hbyte]) (by rw [hbyte])
      refine ⟨fun a => ?_, hh.trans (by rw [hbyte]), hdatapath.trans (by rw [hbyte]),
        hdraws.trans (by rw [hbyte])⟩
      rw [absorb, hread, hbuffered, hlen, List.length_cons]
      obtain hlt | rfl | hgt := Nat.lt_trichotomy a s.bufLen.toNat
      · rw [if_neg (by omega), if_neg (by omega), if_neg (by omega)]
      · rw [if_neg (by omega), if_pos rfl, if_pos (by omega), Nat.sub_self]
        rfl
      · obtain ⟨k, rfl⟩ : ∃ k, a = s.bufLen.toNat + 1 + k := ⟨a - (s.bufLen.toNat + 1), by omega⟩
        have hk : s.bufLen.toNat + 1 + k - s.bufLen.toNat = k + 1 := by omega
        rw [if_neg (show s.bufLen.toNat + 1 + k ≠ s.bufLen.toNat by omega), hk, Nat.add_sub_cancel_left,
          List.getD_cons_succ]
        exact if_congr (by omega) rfl rfl
    · omega

/-- Settles O27: the response leaves the context that absorbing left. -/
theorem shortUpdateOnlyBuffers : Obligations.ShortUpdateOnlyBuffers := by
  intro p s hactive hwf hfits hshort
  obtain ⟨hread, hrest⟩ := absorb_short hwf hshort
  refine ⟨_, exec_update_of_fits hactive hfits, hread, ?_, hrest⟩
  exact (absorb_bufLen p s (by omega)).trans (Nat.mod_eq_of_lt hshort)

/-! ## The UPDATE that fills the buffer -/

/-- The byte that completes a block has the block compressed, that byte included (rule R183). -/
theorem readChain_absorbByte_of_full {s : State} {f : Family} (b : Byte) (hf : familyOf s.variant = f)
    (hfull : s.bufLen.toNat + 1 = blockSize f) :
    readChain f (absorbByte s b) =
      compress f (readChain f s) (memRead (memWrite s s.bufLen.toNat b) 0 (blockSize f)) := by
  subst hf
  obtain ⟨hmore, -⟩ | ⟨-, hbyte⟩ := absorbByte_cases s b
  · exact absurd hfull hmore
  · rw [hbyte]
    exact readChain_compressBuffer { s with
      buffer := memoryWrite s.buffer s.bufLen.toNat b, byteCounter := s.byteCounter + 1 }

/-- Bytes that fill the buffer exactly, after the bytes `l` in it: the block of both is compressed. -/
theorem absorb_filling {l p : List Byte} {s : State} (hbuffer : s.buffer = bufferCells l)
    (hlen : s.bufLen.toNat = l.length) (hne : p ≠ [])
    (hfull : l.length + p.length = blockSize (familyOf s.variant)) :
    readChain (familyOf s.variant) (absorb p s) =
      compress (familyOf s.variant) (readChain (familyOf s.variant) s) (l ++ p) ∧
    (absorb p s).bufLen = 0 ∧ (absorb p s).buffer = [] := by
  induction p generalizing l s with
  | nil => exact absurd rfl hne
  | cons b p ih =>
    have hwrite : memoryWrite s.buffer s.bufLen.toNat b = bufferCells (l ++ [b]) := by
      rw [hbuffer, hlen, memoryWrite_bufferCells]
    rw [List.length_cons] at hfull
    obtain ⟨hmore, hbyte⟩ | ⟨hlast, hbyte⟩ := absorbByte_cases s b
    · have hbufLen := absorbByte_bufLen s b (by omega)
      rw [Nat.mod_eq_of_lt (by omega), hlen] at hbufLen
      have hchain : readChain (familyOf s.variant) (absorbByte s b) = readChain (familyOf s.variant) s := by
        rw [hbyte]; rfl
      have hrest := ih (l := l ++ [b]) (s := absorbByte s b) (by rw [hbyte]; exact hwrite) (by simp [hbufLen])
        (by rintro rfl; rw [List.length_nil] at hfull; omega) (by simp; omega)
      rwa [absorbByte_variant, hchain, List.append_assoc] at hrest
    · obtain rfl : p = [] := List.length_eq_zero_iff.mp (by omega)
      have hblock := memRead_bufferCells (memWrite s s.bufLen.toNat b) _ hwrite
      rw [List.length_append, ← hlen, List.length_singleton, hlast] at hblock
      rw [absorb, absorb, readChain_absorbByte_of_full b rfl hlast, hblock, hbyte]
      exact ⟨rfl, rfl, rfl⟩

/-- Settles O28: `Ready` says that the buffer holds exactly the bytes read from it. -/
theorem fullBufferIsCompressed : Obligations.FullBufferIsCompressed := by
  intro p s hactive hready hfits hfull
  obtain ⟨hlt, -, -, hwritten⟩ := hready
  obtain ⟨l, hbuffer⟩ : ∃ l, s.buffer = bufferCells l := ⟨_, eq_bufferCells_of_range hwritten⟩
  have hlen : s.bufLen.toNat = l.length := by
    simpa [hbuffer] using (congrArg List.length hwritten).symm
  have hne : p ≠ [] := by
    rintro rfl
    rw [List.length_nil] at hfull
    omega
  obtain ⟨hchain, hzero, hempty⟩ := absorb_filling hbuffer hlen hne (hlen ▸ hfull)
  refine ⟨_, exec_update_of_fits hactive hfits, ?_, hzero, fun a => ?_⟩
  · rw [hlen, memRead_bufferCells s l hbuffer]
    exact hchain
  · rw [respond_buffer, hempty, memoryRead]

end Sys2Proof.Machine
end

section
/-! The claims about every step: totality, the invariant, the lifecycle registers, and what cannot be observed
(10_state.md, 70_reset_and_hazards.md). -/

namespace Sys2Proof.Machine

/-! ## What a step can do -/

/-- Everything a step can do, by what the command stream begins with. -/
theorem step_cases_decodeStream (s : State) :
    (s.resetInput = true ∧ step s = .next (hardwareReset s)) ∨
    (s.resetInput = false ∧ decodeStream s.commands = none ∧ step s = .next s) ∨
    (∃ rest, s.resetInput = false ∧ decodeStream s.commands = some (none, rest) ∧
      step s = .next (raise .illegal { s with commands := rest })) ∨
    (∃ i rest, s.resetInput = false ∧ decodeStream s.commands = some (some i, rest) ∧
      step s = exec i { s with commands := rest }) := by
  obtain hreset | hreset := Bool.eq_false_or_eq_true s.resetInput
  · exact .inl ⟨hreset, step_of_resetInput hreset⟩
  · right
    match hframe : decodeStream s.commands with
    | none => exact .inl ⟨hreset, rfl, step_of_noFrame hreset hframe⟩
    | some (none, rest) => exact .inr (.inl ⟨rest, hreset, rfl, step_of_illegalFrame hreset hframe⟩)
    | some (some i, rest) => exact .inr (.inr ⟨i, rest, hreset, rfl, step_of_command hreset hframe⟩)

/-- Settles O46: every command answers a next state, and so do the three other kinds of step. -/
theorem everyStepAnswersANextState : Obligations.EveryStepAnswersANextState := by
  intro s
  obtain ⟨-, h⟩ | ⟨-, -, h⟩ | ⟨rest, -, -, h⟩ | ⟨i, rest, -, -, h⟩ := step_cases_decodeStream s
  · exact ⟨_, h⟩
  · exact ⟨_, h⟩
  · exact ⟨_, h⟩
  · obtain ⟨t, ht, -⟩ := exec_answersFrame i { s with commands := rest }
    exact ⟨t, h.trans ht⟩

/-! ## Hardware reset (rule R260) -/

/-- The answer to the first STATUS after a hardware reset: every field is 0. -/
theorem statusWord_of_empty : statusWord none .empty .sha224 none 0 = 0 := by decide

/-- Settles O50: what `hardwareReset` writes, and the STATUS after it. -/
theorem hardwareResetEmptiesTheEngine : Obligations.HardwareResetEmptiesTheEngine := fun s hreset =>
  ⟨hardwareReset s, _, step_of_resetInput hreset, rfl, rfl, rfl, rfl, rfl, rfl, rfl,
    congrArg ([·]) statusWord_of_empty⟩

/-- Settles O51: the five values of the launch state. -/
theorem launchStateIsAfterHardwareReset : Obligations.LaunchStateIsAfterHardwareReset :=
  ⟨rfl, rfl, rfl, rfl, rfl⟩

/-! ## Who leaves phase ERROR and who binds a variant (rules R238, R21) -/

/-- Of the commands, only INIT and DIGEST leave phase ERROR, and they clear `ERR`. -/
theorem exec_leaves_error {i : Instr} {s t : State} (hphase : s.phase = .error) (hexec : exec i s = .next t)
    (hleft : t.phase ≠ .error) :
    t.err = none ∧ ((∃ v, i = .init v) ∨ ∃ v p, i = .digest v p) := by
  obtain ⟨v, rfl, h⟩ | ⟨p, rfl, hactive, -, h⟩ | ⟨rfl, hactive, h⟩ | ⟨rfl, hallowed, h⟩ | ⟨v, p, rfl, h⟩ |
    ⟨rfl, h⟩ | ⟨x, h, -⟩ := exec_cases i s <;> cases h.symm.trans hexec
  · exact ⟨rfl, .inl ⟨v, rfl⟩⟩
  · simp [hphase] at hactive
  · simp [hphase] at hactive
  · simp [hphase] at hallowed
  · exact ⟨absorb_err p _, .inr ⟨v, p, rfl⟩⟩
  · exact absurd hphase hleft
  · exact absurd rfl hleft

/-- Settles O44: a step that is no hardware reset leaves phase ERROR by a command only. -/
theorem onlyInitDigestOrResetLeaveError : Obligations.OnlyInitDigestOrResetLeaveError := by
  intro s t hphase hstep hleft
  obtain ⟨hreset, h⟩ | ⟨-, -, h⟩ | ⟨rest, -, -, h⟩ | ⟨i, rest, -, hframe, h⟩ := step_cases_decodeStream s <;>
    rw [h] at hstep
  · cases hstep
    exact ⟨rfl, .inl hreset⟩
  · cases hstep
    exact absurd hphase hleft
  · cases hstep
    exact absurd rfl hleft
  · obtain ⟨herr, hi⟩ := exec_leaves_error (s := { s with commands := rest }) hphase hstep hleft
    exact ⟨herr, .inr ⟨i, rest, hframe, hi⟩⟩

/-- Of the commands, only INIT and DIGEST write `VARIANT`, and they write their operand. -/
theorem exec_binds_variant {i : Instr} {s t : State} (hexec : exec i s = .next t)
    (hchanged : t.variant ≠ s.variant) : i = .init t.variant ∨ ∃ p, i = .digest t.variant p := by
  obtain ⟨v, rfl, h⟩ | ⟨p, rfl, -, -, h⟩ | ⟨rfl, -, h⟩ | ⟨rfl, -, h⟩ | ⟨v, p, rfl, h⟩ | ⟨rfl, h⟩ |
    ⟨x, h, -⟩ := exec_cases i s <;> cases h.symm.trans hexec
  · exact .inl rfl
  · exact absurd (absorb_variant p s) hchanged
  · exact absurd rfl hchanged
  · exact absurd rfl hchanged
  · exact .inr ⟨p, by simp⟩
  · exact absurd rfl hchanged
  · exact absurd rfl hchanged

/-- Settles O45: a step that is no hardware reset writes `VARIANT` by a command only. -/
theorem onlyInitAndDigestBindAVariant : Obligations.OnlyInitAndDigestBindAVariant := by
  intro s t hstep hchanged
  obtain ⟨hreset, h⟩ | ⟨-, -, h⟩ | ⟨rest, -, -, h⟩ | ⟨i, rest, -, hframe, h⟩ := step_cases_decodeStream s <;>
    rw [h] at hstep
  · cases hstep
    exact .inl ⟨hreset, rfl⟩
  · cases hstep
    exact absurd rfl hchanged
  · cases hstep
    exact absurd rfl hchanged
  · exact .inr ⟨i, rest, hframe, exec_binds_variant hstep hchanged⟩

/-! ## The invariant (rules R27, R28) -/

/-- Settles O53: the buffer lists nothing, and the phase is EMPTY. -/
theorem launchStateMeetsTheInvariant : Obligations.LaunchStateMeetsTheInvariant :=
  ⟨Memory_wf_nil, by simp [State.reset], fun hactive => by simp [State.reset] at hactive⟩

/-- An error empties the buffer, and it leaves a cause recorded. -/
theorem raise_inv (x : Cause) {s : State} (hinv : EngineInv s) : EngineInv (raise x s) := by
  obtain ⟨-, herr, -⟩ := hinv
  refine ⟨Memory_wf_nil, ?_, fun hactive => by simp at hactive⟩
  rw [raise_err]
  split
  · simp_all
  · simp

/-- A fresh context meets the invariant, whatever was before. -/
theorem started_inv (v : Variant) (s : State) : EngineInv (started v s) :=
  ⟨Memory_wf_nil, by simp [started], fun _ => (started_holds v s).ready⟩

/-- `finalize()` empties the buffer; it runs with no error recorded. -/
theorem finishWithDigest_inv {s : State} (herr : s.err = none) : EngineInv (finishWithDigest s) :=
  ⟨Memory_wf_nil, by simp [herr], fun hactive => by simp at hactive⟩

/-- Absorbing an admissible payload in phase ACTIVE keeps the invariant. -/
theorem absorb_inv {p : List Byte} {s : State} (hinv : EngineInv s) (hactive : s.phase = .active)
    (hfits : s.byteCounter.toNat + p.length ≤ maxByteCount (familyOf s.variant)) : EngineInv (absorb p s) := by
  obtain ⟨hwf, herr, hready⟩ := hinv
  exact ⟨absorb_wf p hwf, by simpa using herr, fun _ => absorb_ready p (hready hactive) hfits⟩

/-- Every command keeps the invariant. -/
theorem exec_inv {i : Instr} {s t : State} (hinv : EngineInv s) (hexec : exec i s = .next t) : EngineInv t := by
  obtain ⟨v, -, h⟩ | ⟨p, -, hactive, hfits, h⟩ | ⟨-, hactive, h⟩ | ⟨-, -, h⟩ | ⟨v, p, -, h⟩ | ⟨-, h⟩ |
    ⟨x, h, -⟩ := exec_cases i s <;> cases h.symm.trans hexec
  · exact started_inv v s
  · exact absorb_inv hinv hactive hfits
  · obtain ⟨-, herr, -⟩ := hinv
    exact finishWithDigest_inv (herr.mpr (by simp [hactive]))
  · exact started_inv s.variant s
  · exact finishWithDigest_inv (absorb_err p _)
  · exact hinv
  · exact raise_inv x hinv

/-- Settles O52: the invariant does not speak of the streams, and each kind of step keeps it. -/
theorem invariantIsKeptByEveryStep : Obligations.InvariantIsKeptByEveryStep := by
  intro s t hinv hstep
  obtain ⟨-, h⟩ | ⟨-, -, h⟩ | ⟨rest, -, -, h⟩ | ⟨i, rest, -, -, h⟩ := step_cases_decodeStream s <;>
    rw [h] at hstep
  · cases hstep
    exact ⟨Memory_wf_nil, by simp, fun hactive => by simp at hactive⟩
  · cases hstep
    exact hinv
  · cases hstep
    exact raise_inv .illegal (s := { s with commands := rest }) hinv
  · exact exec_inv (s := { s with commands := rest }) hinv hstep

/-! ## Contexts that count alike (rule R162) -/

/-- The two contexts have one variant and equal lengths, whatever their bytes. -/
def SameCounts (s t : State) : Prop :=
  s.variant = t.variant ∧ s.byteCounter.toNat = t.byteCounter.toNat ∧ s.bufLen = t.bufLen

theorem absorbByte_bufLen_eq (s : State) (b : Byte) :
    (absorbByte s b).bufLen =
      if s.bufLen.toNat + 1 = blockSize (familyOf s.variant) then 0 else s.bufLen + 1 := by
  obtain ⟨hmore, h⟩ | ⟨hfull, h⟩ := absorbByte_cases s b
  · rw [h, if_neg hmore]
  · rw [h, if_pos hfull, compressBuffer_bufLen]

/-- The lengths after a byte do not depend on the byte. -/
theorem absorbByte_sameCounts {s t : State} (b c : Byte) (h : SameCounts s t) :
    SameCounts (absorbByte s b) (absorbByte t c) := by
  obtain ⟨hvariant, hcount, hlen⟩ := h
  refine ⟨by simpa using hvariant, ?_, ?_⟩
  · rw [absorbByte_byteCounter, absorbByte_byteCounter, hcount, hvariant]
  · rw [absorbByte_bufLen_eq, absorbByte_bufLen_eq, hvariant, hlen]

theorem absorb_sameCounts {p q : List Byte} {s t : State} (hlength : p.length = q.length)
    (h : SameCounts s t) : SameCounts (absorb p s) (absorb q t) := by
  induction p generalizing q s t with
  | nil =>
    obtain rfl := List.length_eq_zero_iff.mp hlength.symm
    exact h
  | cons b p ih =>
    obtain ⟨c, q, rfl⟩ := List.exists_cons_of_length_eq_add_one hlength.symm
    exact ih (q := q) (by simpa using hlength) (absorbByte_sameCounts b c h)

/-! ## Contexts equal in what the spec specifies (rule R37) -/

/-- The two contexts agree on everything that is specified while a computation runs. -/
def SameContext (s t : State) : Prop :=
  SameCounts s t ∧ s.buffer = t.buffer ∧
    readChain (familyOf s.variant) s = readChain (familyOf s.variant) t

/-- Exactly the first `buf_len` bytes of the buffer are written: no byte that is read is unspecified. -/
def BufferWritten (s : State) : Prop :=
  s.bufLen.toNat < blockSize (familyOf s.variant) ∧ s.buffer.map Prod.fst = List.range s.bufLen.toNat

theorem Ready.bufferWritten {s : State} (h : Ready s) : BufferWritten s := by
  obtain ⟨hlt, -, -, hwritten⟩ := h
  exact ⟨hlt, hwritten⟩

/-- One byte written after the first `n` makes the first `n + 1`. -/
theorem memoryWrite_map_fst {m : Memory} {n : Nat} (b : Byte) (h : m.map Prod.fst = List.range n) :
    (memoryWrite m n b).map Prod.fst = List.range (n + 1) := by
  rw [memoryWrite_append _ _ _ (fst_lt_of_map_eq_range h), List.map_append, h, List.range_succ,
    List.map_singleton]

theorem absorbByte_bufferWritten {s : State} (b : Byte) (h : BufferWritten s) :
    BufferWritten (absorbByte s b) := by
  obtain ⟨hlt, hwritten⟩ := h
  have hlen := absorbByte_bufLen s b hlt
  refine ⟨?_, ?_⟩
  · rw [hlen, absorbByte_variant]
    exact Nat.mod_lt _ (blockSize_pos _)
  · rw [hlen]
    obtain ⟨hmore, hbyte⟩ | ⟨hfull, hbyte⟩ := absorbByte_cases s b
    · rw [hbyte, Nat.mod_eq_of_lt (by omega)]
      exact memoryWrite_map_fst b hwritten
    · rw [hbyte, hfull, Nat.mod_self]
      rfl

/-- A block is compressed only when all its bytes are written, so one byte keeps two contexts equal. -/
theorem absorbByte_sameContext {s t : State} (b : Byte) (hwritten : BufferWritten s) (h : SameContext s t) :
    SameContext (absorbByte s b) (absorbByte t b) := by
  have hcounts := absorbByte_sameCounts b b h.1
  obtain ⟨⟨hvariant, -, hlen⟩, hbuffer, hchain⟩ := h
  obtain ⟨-, hwritten⟩ := hwritten
  refine ⟨hcounts, ?_⟩
  rw [absorbByte_variant]
  obtain ⟨hmore, hs⟩ | ⟨hfull, hs⟩ := absorbByte_cases s b
  · obtain ⟨-, ht⟩ | ⟨hfull, -⟩ := absorbByte_cases t b
    · rw [hs, ht, hbuffer, hlen]
      exact ⟨rfl, hchain⟩
    · exact absurd (by rw [hlen, hvariant, hfull]) hmore
  · obtain ⟨hmore, -⟩ | ⟨-, ht⟩ := absorbByte_cases t b
    · exact absurd (by rw [← hlen, ← hvariant, hfull]) hmore
    · have hblock := memRead_congr (n := blockSize (familyOf s.variant)) (s := memWrite s s.bufLen.toNat b)
        (t := memWrite t t.bufLen.toNat b) (by simp [hbuffer, hlen]) (hfull ▸ memoryWrite_map_fst b hwritten)
      rw [readChain_absorbByte_of_full b rfl hfull,
        readChain_absorbByte_of_full b (congrArg familyOf hvariant.symm) (hlen ▸ hfull), hchain, hblock, hs, ht]
      exact ⟨rfl, rfl⟩

theorem absorb_bufferWritten (p : List Byte) {s : State} (h : BufferWritten s) : BufferWritten (absorb p s) := by
  induction p generalizing s with
  | nil => exact h
  | cons b p ih => exact ih (absorbByte_bufferWritten b h)

theorem absorb_sameContext (p : List Byte) {s t : State} (hwritten : BufferWritten s) (h : SameContext s t) :
    SameContext (absorb p s) (absorb p t) := by
  induction p generalizing s t with
  | nil => exact h
  | cons b p ih => exact ih (absorbByte_bufferWritten b hwritten) (absorbByte_sameContext b hwritten h)

/-- The digest reads the context only where it is specified. -/
theorem finalDigest_congr {s t : State} (hwritten : BufferWritten s) (h : SameContext s t) :
    finalDigest s = finalDigest t := by
  obtain ⟨⟨hvariant, hcount, hlen⟩, hbuffer, hchain⟩ := h
  rw [finalDigest, finalDigest, hchain, hcount, memRead_congr hbuffer hwritten.2, hlen, hvariant]

/-! ## Unspecified values are not observed (rules R37, R15) -/

theorem AgreeOnSpecified.sameContext {s t : State} (h : AgreeOnSpecified s t) (hactive : s.phase = .active) :
    SameContext s t := by
  obtain ⟨-, hvariant, -, -, -, -, hcontext⟩ := h
  obtain ⟨hcount, hlen, hbuffer, hchain⟩ := hcontext hactive
  exact ⟨⟨hvariant, hcount, hlen⟩, hbuffer, hchain⟩

theorem respond_agrees {s t : State} (code : Option Cause) (bytes : List Byte)
    (h : AgreeOnSpecified s t) : AgreeOnSpecified (respond code bytes s) (respond code bytes t) := by
  obtain ⟨hphase, hvariant, herr, hcommands, hresponses, hreset, hcontext⟩ := h
  refine ⟨hphase, hvariant, herr, hcommands, ?_, hreset, hcontext⟩
  rw [respond_responses, respond_responses, hphase, hvariant, herr, hresponses]

theorem raise_agrees {s t : State} (x : Cause) (h : AgreeOnSpecified s t) :
    AgreeOnSpecified (raise x s) (raise x t) := by
  obtain ⟨hphase, hvariant, herr, hcommands, hresponses, hreset, -⟩ := h
  refine ⟨rfl, hvariant, ?_, hcommands, ?_, hreset, fun hactive => by simp at hactive⟩
  · rw [raise_err, raise_err, hphase, herr]
  · rw [raise_responses, raise_responses, hphase, hvariant, herr, hresponses]

theorem started_agrees {s t : State} (v : Variant) (h : AgreeOnSpecified s t) :
    AgreeOnSpecified (started v s) (started v t) := by
  obtain ⟨-, -, -, hcommands, hresponses, hreset, -⟩ := h
  exact ⟨rfl, rfl, rfl, hcommands, hresponses, hreset, fun _ => ⟨rfl, rfl, rfl,
    (readChain_initContext s v).trans (readChain_initContext t v).symm⟩⟩

theorem absorb_agrees {s t : State} (p : List Byte) (hactive : s.phase = .active)
    (hwritten : BufferWritten s) (h : AgreeOnSpecified s t) :
    AgreeOnSpecified (absorb p s) (absorb p t) := by
  obtain ⟨⟨-, hcount, hlen⟩, hbuffer, hchain⟩ := absorb_sameContext p hwritten (h.sameContext hactive)
  obtain ⟨hphase, hvariant, herr, hcommands, hresponses, hreset, -⟩ := h
  exact ⟨by simpa using hphase, by simpa using hvariant, by simpa using herr, by simpa using hcommands,
    by simpa using hresponses, by simpa using hreset, fun _ => ⟨hcount, hlen, hbuffer, hchain⟩⟩

theorem finishWithDigest_agrees {s t : State} (hactive : s.phase = .active)
    (hwritten : BufferWritten s) (h : AgreeOnSpecified s t) :
    AgreeOnSpecified (finishWithDigest s) (finishWithDigest t) := by
  have hdigest := finalDigest_congr hwritten (h.sameContext hactive)
  obtain ⟨-, hvariant, herr, hcommands, hresponses, hreset, -⟩ := h
  refine ⟨rfl, hvariant, herr, hcommands, ?_, hreset, fun hactive => by simp at hactive⟩
  rw [finishWithDigest_responses, finishWithDigest_responses, hdigest, hvariant, herr, hresponses]

/-- A command run in two states that agree leaves states that agree. -/
theorem exec_agrees (i : Instr) {s t : State} (hwritten : s.phase = .active → BufferWritten s)
    (h : AgreeOnSpecified s t) :
    ∃ s' t', exec i s = .next s' ∧ exec i t = .next t' ∧ AgreeOnSpecified s' t' := by
  obtain ⟨hphase, hvariant, -, -, -, -, hcontext⟩ := id h
  cases i with
  | init v => exact ⟨_, _, rfl, rfl, respond_agrees none [] (started_agrees v h)⟩
  | update p =>
    by_cases hactive : s.phase = .active
    · have hcount := (hcontext hactive).1
      have hactiveT := hphase ▸ hactive
      by_cases hfits : s.byteCounter.toNat + p.length ≤ maxByteCount (familyOf s.variant)
      · exact ⟨_, _, exec_update_of_fits hactive hfits, exec_update_of_fits hactiveT (hcount ▸ hvariant ▸ hfits),
          respond_agrees none [] (absorb_agrees p hactive (hwritten hactive) h)⟩
      · rw [not_le] at hfits
        exact ⟨_, _, exec_update_of_overflow hactive hfits,
          exec_update_of_overflow hactiveT (hcount ▸ hvariant ▸ hfits), raise_agrees .overflow h⟩
    · exact ⟨_, _, exec_update_of_not_active p hactive, exec_update_of_not_active p (hphase ▸ hactive),
        raise_agrees .usage h⟩
  | finalize =>
    by_cases hactive : s.phase = .active
    · exact ⟨_, _, exec_finalize_of_active hactive, exec_finalize_of_active (hphase ▸ hactive),
        finishWithDigest_agrees hactive (hwritten hactive) h⟩
    · exact ⟨_, _, exec_finalize_of_not_active hactive, exec_finalize_of_not_active (hphase ▸ hactive),
        raise_agrees .usage h⟩
  | reset =>
    obtain ⟨hallowed, hexec⟩ | ⟨hrefused, hexec⟩ := execReset_cases s
    · have hreset := exec_reset_of_allowed (hphase ▸ hallowed)
      rw [← hvariant] at hreset
      exact ⟨_, _, hexec, hreset, respond_agrees none [] (started_agrees s.variant h)⟩
    · exact ⟨_, _, hexec, exec_reset_of_refused (hphase ▸ hrefused), raise_agrees .usage h⟩
  | digest v p =>
    have hstarted : BufferWritten (started v s) := (started_holds v s).ready.bufferWritten
    exact ⟨_, _, exec_digest v p s, exec_digest v p t, finishWithDigest_agrees
      (absorb_phase p _) (absorb_bufferWritten p hstarted) (absorb_agrees p rfl hstarted (started_agrees v h))⟩
  | status => exact ⟨_, _, rfl, rfl, respond_agrees none [] h⟩

/-- Settles O54: the two states have the same reset input and command stream, so they take the same kind of
step. -/
theorem unspecifiedValuesAreNeverObserved : Obligations.UnspecifiedValuesAreNeverObserved := by
  intro s t hinv h
  obtain ⟨-, -, hready⟩ := hinv
  obtain ⟨hphase, hvariant, herr, hcommands, hresponses, hreset, hcontext⟩ := id h
  obtain ⟨hr, hs⟩ | ⟨hr, hframe, hs⟩ | ⟨rest, hr, hframe, hs⟩ | ⟨i, rest, hr, hframe, hs⟩ :=
    step_cases_decodeStream s <;>
    rw [hreset] at hr
  · exact ⟨_, _, hs, step_of_resetInput hr, rfl, rfl, rfl, rfl, rfl, rfl, fun hactive => by simp at hactive⟩
  all_goals
    rw [hcommands] at hframe
    have hrest (ws : List Word32) :
        AgreeOnSpecified { s with commands := ws } { t with commands := ws } :=
      ⟨hphase, hvariant, herr, rfl, hresponses, hreset, hcontext⟩
  · exact ⟨_, _, hs, step_of_noFrame hr hframe, h⟩
  · exact ⟨_, _, hs, step_of_illegalFrame hr hframe, raise_agrees .illegal (hrest rest)⟩
  · rw [hs, step_of_command hr hframe]
    exact exec_agrees i (fun hactive => Ready.bufferWritten (hready hactive)) (hrest rest)

/-! ## Control does not depend on data (rules R162, R166, R240) -/

/-- From `s` and `t` the engine came to `s'` and `t'`, which have the same control, with responses of one
status word and payloads of one length. -/
def AnswersAlike (s t s' t' : State) : Prop :=
  SameControl s' t' ∧ ∃ (status : Word32) (ws xs : List Word32),
    s'.responses = s.responses ++ status :: ws ∧ t'.responses = t.responses ++ status :: xs ∧
      ws.length = xs.length

theorem raise_answersAlike {s t : State} (x : Cause) (h : SameControl s t) :
    AnswersAlike s t (raise x s) (raise x t) := by
  obtain ⟨hphase, hvariant, herr, -⟩ := h
  refine ⟨⟨rfl, hvariant, ?_, fun hactive => by simp at hactive⟩, _, [], [], raise_responses s x, ?_, rfl⟩
  · rw [raise_err, raise_err, hphase, herr]
  · rw [raise_responses, hphase, hvariant, herr]

/-- `s₁` and `t₁` are what a command made of `s` and `t` before it answered. -/
theorem respond_answersAlike {s t s₁ t₁ : State} {bytes bytes' : List Byte} (h : SameControl s₁ t₁)
    (hs : s₁.responses = s.responses) (ht : t₁.responses = t.responses) (hlength : bytes.length = bytes'.length) :
    AnswersAlike s t (respond none bytes s₁) (respond none bytes' t₁) := by
  obtain ⟨hphase, hvariant, herr, -⟩ := id h
  refine ⟨h, _, _, packBytes bytes', by rw [respond_responses, hs], ?_, ?_⟩
  · rw [respond_responses, ht, hphase, hvariant, herr, hlength]
  · rw [packBytes_length, packBytes_length, hlength]

theorem finishWithDigest_answersAlike {s t s₁ t₁ : State} (hvariant : s₁.variant = t₁.variant)
    (herr : s₁.err = t₁.err) (hs : s₁.responses = s.responses) (ht : t₁.responses = t.responses) :
    AnswersAlike s t (finishWithDigest s₁) (finishWithDigest t₁) := by
  refine respond_answersAlike ⟨rfl, hvariant, herr, fun hactive => by simp at hactive⟩ hs ht ?_
  rw [finalDigest_length, finalDigest_length, hvariant]

/-- INIT and RESET. -/
theorem started_answersAlike {s t : State} (v : Variant) :
    AnswersAlike s t (respond none [] (started v s)) (respond none [] (started v t)) :=
  respond_answersAlike ⟨rfl, rfl, rfl, fun _ => ⟨rfl, rfl⟩⟩ rfl rfl rfl

/-- Settles O55: command by command, the condition of each case reads control and lengths alone. -/
theorem controlDoesNotDependOnData : Obligations.ControlDoesNotDependOnData := by
  intro i j s t hshape h
  suffices ∃ s' t', exec i s = .next s' ∧ exec j t = .next t' ∧ AnswersAlike s t s' t' by
    obtain ⟨s', t', hs, ht, hcontrol, status, ws, xs, hanswer⟩ := this
    exact ⟨s', t', status, ws, xs, hs, ht, hcontrol, hanswer⟩
  obtain ⟨hphase, hvariant, herr, hcounts⟩ := id h
  cases i with
  | init v =>
    obtain rfl := hshape
    exact ⟨_, _, rfl, rfl, started_answersAlike v⟩
  | update p =>
    obtain ⟨q, rfl, hlength⟩ := hshape
    by_cases hactive : s.phase = .active
    · obtain ⟨hcount, hlen⟩ := hcounts hactive
      have hactiveT := hphase ▸ hactive
      by_cases hfits : s.byteCounter.toNat + p.length ≤ maxByteCount (familyOf s.variant)
      · obtain ⟨hvariant', hcounts'⟩ := absorb_sameCounts hlength ⟨hvariant, hcount, hlen⟩
        exact ⟨_, _, exec_update_of_fits hactive hfits,
          exec_update_of_fits hactiveT (hcount ▸ hvariant ▸ hlength ▸ hfits),
          respond_answersAlike ⟨by simpa using hphase, hvariant', by simpa using herr, fun _ => hcounts'⟩
            (absorb_responses p s) (absorb_responses q t) rfl⟩
      · rw [not_le] at hfits
        exact ⟨_, _, exec_update_of_overflow hactive hfits,
          exec_update_of_overflow hactiveT (hcount ▸ hvariant ▸ hlength ▸ hfits), raise_answersAlike .overflow h⟩
    · exact ⟨_, _, exec_update_of_not_active p hactive, exec_update_of_not_active q (hphase ▸ hactive),
        raise_answersAlike .usage h⟩
  | finalize =>
    obtain rfl := hshape
    by_cases hactive : s.phase = .active
    · exact ⟨_, _, exec_finalize_of_active hactive, exec_finalize_of_active (hphase ▸ hactive),
        finishWithDigest_answersAlike hvariant herr rfl rfl⟩
    · exact ⟨_, _, exec_finalize_of_not_active hactive, exec_finalize_of_not_active (hphase ▸ hactive),
        raise_answersAlike .usage h⟩
  | reset =>
    obtain rfl := hshape
    obtain ⟨hallowed, hexec⟩ | ⟨hrefused, hexec⟩ := execReset_cases s
    · have hreset := exec_reset_of_allowed (hphase ▸ hallowed)
      rw [← hvariant] at hreset
      exact ⟨_, _, hexec, hreset, started_answersAlike s.variant⟩
    · exact ⟨_, _, hexec, exec_reset_of_refused (hphase ▸ hrefused), raise_answersAlike .usage h⟩
  | digest v p =>
    obtain ⟨q, rfl, -⟩ := hshape
    exact ⟨_, _, rfl, rfl, finishWithDigest_answersAlike (by simp) (by simp) (by simp) (by simp)⟩
  | status =>
    obtain rfl := hshape
    exact ⟨_, _, rfl, rfl, respond_answersAlike h rfl rfl rfl⟩

end Sys2Proof.Machine
end

section
/-! The claims about the sigma functions and the round constants (41_word_arithmetic.md, 40_variant_tables.md),
the schedule's rolling window and the worked examples (42_compression.md), and the padded tail's and the digest's
words (44_padding_finalization.md). -/

namespace Sys2Proof.Machine

/-! ## The sigma functions are linear (rule R138) -/

theorem rotr_xor {w : Nat} (x y : BitVec w) (n : Nat) : rotr (x ^^^ y) n = rotr x n ^^^ rotr y n :=
  BitVec.eq_of_getLsbD_eq fun i hi => by
    rw [BitVec.getLsbD_xor, rotr_getLsbD _ n hi, rotr_getLsbD _ n hi, rotr_getLsbD _ n hi, BitVec.getLsbD_xor]

theorem shr_xor {w : Nat} (x y : BitVec w) (n : Nat) : shr (x ^^^ y) n = shr x n ^^^ shr y n :=
  BitVec.ushiftRight_xor_distrib x y n

theorem bigSigma_xor {w : Nat} (r1 r2 r3 : Nat) (x y : BitVec w) :
    bigSigma r1 r2 r3 (x ^^^ y) = bigSigma r1 r2 r3 x ^^^ bigSigma r1 r2 r3 y := by
  simp only [bigSigma, rotr_xor]
  ac_rfl

theorem smallSigma_xor {w : Nat} (r1 r2 n : Nat) (x y : BitVec w) :
    smallSigma r1 r2 n (x ^^^ y) = smallSigma r1 r2 n x ^^^ smallSigma r1 r2 n y := by
  simp only [smallSigma, rotr_xor, shr_xor]
  ac_rfl

/-- A function that is linear over xor maps 0 to 0. -/
theorem map_zero_of_xor {w : Nat} {g : BitVec w → BitVec w} (hxor : ∀ x y, g (x ^^^ y) = g x ^^^ g y) :
    g 0 = 0 := by
  have hzero := hxor 0 0
  rwa [BitVec.xor_self, BitVec.xor_self] at hzero

/-- Settles O14: each sigma function is a big or a small sigma with its amounts. -/
theorem sigmaFunctionsAreLinear : Obligations.SigmaFunctionsAreLinear := by
  intro f g hg
  suffices hxor : ∀ x y, g (x ^^^ y) = g x ^^^ g y from ⟨map_zero_of_xor hxor, hxor⟩
  simp only [List.mem_cons, List.not_mem_nil, or_false] at hg
  obtain rfl | rfl | rfl | rfl := hg <;> cases f
  · exact bigSigma_xor 2 13 22
  · exact bigSigma_xor 28 34 39
  · exact bigSigma_xor 6 11 25
  · exact bigSigma_xor 14 18 41
  · exact smallSigma_xor 7 18 3
  · exact smallSigma_xor 1 8 7
  · exact smallSigma_xor 17 19 10
  · exact smallSigma_xor 19 61 6

/-! ## Tables and worked examples -/

/-- Settles O15: the two tables, entry by entry. -/
theorem roundConstantsOfTheTwoFamilies : Obligations.RoundConstantsOfTheTwoFamilies := by
  unfold Obligations.RoundConstantsOfTheTwoFamilies
  decide

/-- Settles O20: the two compressions, evaluated in the kernel. -/
theorem compressOfTheWorkedExamples : Obligations.CompressOfTheWorkedExamples := by
  constructor
  · decide +kernel
  · decide +kernel

/-! ## The rolling window (rule R154) -/

/-- The sixteen registers hold the schedule words `W[n]` … `W[n + 15]`, each at its index modulo 16. -/
def WindowHolds (f : Family) (block : List Byte) (n : Nat) (regs : List (Word f)) : Prop :=
  regs.length = 16 ∧ ∀ t, n ≤ t → t < 16 + n → regs.getD (t % 16) 0 = (schedule f block).getD t 0

theorem blockWords_windowHolds (f : Family) (block : List Byte) : WindowHolds f block 0 (blockWords f block) := by
  refine ⟨blockWords_length f block, fun t _ ht => ?_⟩
  rw [Nat.mod_eq_of_lt ht, schedule_getD_of_lt_sixteen f block ht, blockWords, List.getD_eq_getElem?_getD,
    loadWords_getElem? f 16 block t ht, Option.getD_some]

/-- The recurrence reaches back sixteen words, which the window still holds; the oldest one is overwritten. -/
theorem windowStep_windowHolds {f : Family} {block : List Byte} {n : Nat} {regs : List (Word f)}
    (hn : 16 + n < roundCount f) (h : WindowHolds f block n regs) :
    WindowHolds f block (n + 1) (windowStep f (16 + n) regs) := by
  obtain ⟨hlength, hregs⟩ := h
  have hback {k : Nat} (hk : 1 ≤ k) (hk16 : k ≤ 16) :
      regs.getD ((16 + n - k) % 16) 0 = (schedule f block).getD (16 + n - k) 0 :=
    hregs _ (by omega) (by omega)
  have hnew : windowStep f (16 + n) regs = regs.set ((16 + n) % 16) ((schedule f block).getD (16 + n) 0) := by
    rw [windowStep, schedule_getD_recurrence f block (by omega) hn, hback (by omega) (by omega),
      hback (by omega) (by omega), hback (by omega) (by omega), ← hback (k := 16) (by omega) (by omega),
      show (16 + n - 16) % 16 = (16 + n) % 16 by omega]
  rw [hnew]
  refine ⟨by rw [List.length_set, hlength], fun t hnt ht => ?_⟩
  obtain rfl | hlt := eq_or_lt_of_le (show t ≤ 16 + n by omega)
  · rw [List.getD_eq_getElem?_getD, List.getElem?_set_self (by omega), Option.getD_some]
  · rw [List.getD_eq_getElem?_getD, List.getElem?_set_ne (by omega), ← List.getD_eq_getElem?_getD]
    exact hregs t (by omega) hlt

theorem rollingWindow_windowHolds (f : Family) (block : List Byte) {n : Nat} (hn : 16 + n ≤ roundCount f) :
    WindowHolds f block n (rollingWindow f block n) := by
  induction n with
  | zero => exact blockWords_windowHolds f block
  | succ n ih => exact windowStep_windowHolds hn (ih (by omega))

/-- Settles O18: the word computed last is the newest that the window holds. -/
theorem rollingWindowGivesTheSchedule : Obligations.RollingWindowGivesTheSchedule := by
  intro f block n hn
  obtain ⟨-, hregs⟩ := rollingWindow_windowHolds f block (n := n + 1) hn
  exact hregs (16 + n) (by omega) (by omega)

/-! ## The padded tail (rule R212) -/

theorem lengthFieldBytes_le_blockSize (f : Family) : lengthFieldBytes f ≤ blockSize f := by
  cases f <;> decide

/-- The bytes, the byte 0x80 and the length field fit one block. -/
theorem paddedTail_length_of_fits (f : Family) {buffered : List Byte} (count : Nat)
    (hfits : buffered.length + 1 + lengthFieldBytes f ≤ blockSize f) :
    (paddedTail f buffered count).length = blockSize f := by
  rw [paddedTail, List.length_append, padding_length, zeroCount_eq f _ (by omega), if_pos hfits]
  omega

/-- They do not fit one block. -/
theorem paddedTail_length_of_not_fits (f : Family) {buffered : List Byte} (count : Nat)
    (hlt : buffered.length < blockSize f) (hover : blockSize f < buffered.length + 1 + lengthFieldBytes f) :
    (paddedTail f buffered count).length = 2 * blockSize f := by
  have hfield := lengthFieldBytes_le_blockSize f
  rw [paddedTail, List.length_append, padding_length, zeroCount_eq f _ hlt, if_neg hover.not_ge]
  omega

/-- Settles O21: the limits 55 and 111 are a block less the length field and one byte. -/
theorem paddedTailIsOneOrTwoBlocks : Obligations.PaddedTailIsOneOrTwoBlocks := fun buffered count =>
  ⟨fun h => paddedTail_length_of_fits .w32 count (show buffered.length + 1 + 8 ≤ 64 by omega),
    fun h hlt => paddedTail_length_of_not_fits .w32 count hlt (show 64 < buffered.length + 1 + 8 by omega),
    fun h => paddedTail_length_of_fits .w64 count (show buffered.length + 1 + 16 ≤ 128 by omega),
    fun h hlt => paddedTail_length_of_not_fits .w64 count hlt (show 128 < buffered.length + 1 + 16 by omega)⟩

/-! ## The digest (rules R216, R89) -/

/-- Settles O23: the digest length is at most the eight words' length. -/
theorem digestHasItsVariantsLength : Obligations.DigestHasItsVariantsLength := by
  intro v h
  rw [digestBytes, List.length_take, serialise_length]
  cases v <;> rfl

theorem wordOfBytes_bytesOfWord (x : Word32) :
    wordOfBytes (x.extractLsb' 24 8) (x.extractLsb' 16 8) (x.extractLsb' 8 8) (x.extractLsb' 0 8) = x := by
  apply BitVec.eq_of_getLsbD_eq
  intro i hi
  simp only [wordOfBytes, BitVec.getLsbD_extractLsb', BitVec.getLsbD_append]
  interval_cases i <;> simp

/-- Packing the bytes of whole words gives the words back (rule R89). -/
theorem packBytes_unpackBytes_words (n : Nat) (ws : List Word32) :
    packBytes (unpackBytes (4 * n) ws) = ws.take n := by
  unfold unpackBytes
  induction ws generalizing n with
  | nil => simp [packBytes]
  | cons x ws ih =>
    cases n with
    | zero => simp [packBytes]
    | succ n =>
      rw [List.take_succ_cons, ← ih n]
      exact congrArg (· :: _) (wordOfBytes_bytesOfWord x)

/-- A part of a part of a word. -/
theorem extractLsb'_extractLsb' {w start len offset part : Nat} (x : BitVec w) (hfits : start + len ≤ part) :
    (x.extractLsb' offset part).extractLsb' start len = x.extractLsb' (offset + start) len := by
  apply BitVec.eq_of_getLsbD_eq
  intro i hi
  simp only [BitVec.getLsbD_extractLsb', hi, decide_true, Bool.true_and, Nat.add_assoc,
    show start + i < part by omega]

/-- The bytes of a 64-bit word are those of its upper half and of its lower half. -/
theorem be_eight_toNat (x : BitVec 64) :
    be 8 x.toNat = [x.extractLsb' 32 32, x.extractLsb' 0 32].flatMap bytesOfWord := by
  simp only [List.flatMap_cons, List.flatMap_nil, bytesOfWord]
  simp only [extractLsb'_extractLsb' x (show 24 + 8 ≤ 32 by decide),
    extractLsb'_extractLsb' x (show 16 + 8 ≤ 32 by decide), extractLsb'_extractLsb' x (show 8 + 8 ≤ 32 by decide),
    extractLsb'_extractLsb' x (show 0 + 8 ≤ 32 by decide)]
  rfl

/-- The stream words of a chaining value (rule R216): its words, or the halves of its words. -/
def chainWords : (f : Family) → Eight (Word f) → List Word32
  | .w32, h => h.toList
  | .w64, h => h.toList.flatMap fun x => [x.extractLsb' 32 32, x.extractLsb' 0 32]

theorem serialise_eq_bytesOfWord (f : Family) (h : Eight (Word f)) :
    serialise f h = (chainWords f h).flatMap bytesOfWord := by
  cases f with
  | w32 => rfl
  | w64 =>
    rw [chainWords, List.flatMap_assoc]
    exact congrArg (List.flatMap · h.toList) (funext be_eight_toNat)

/-- A digest of `4 * n` bytes is packed into the first `n` stream words of the chaining value. -/
theorem packBytes_digestBytes {v : Variant} {n : Nat} (hlength : digestLength v = 4 * n)
    (h : Eight (Word (familyOf v))) : packBytes (digestBytes v h) = (chainWords (familyOf v) h).take n := by
  rw [digestBytes, serialise_eq_bytesOfWord, hlength]
  exact packBytes_unpackBytes_words n _

/-- Settles O24: the first 7, 8, 12, 16, 7 and 8 stream words of the chaining value. -/
theorem digestWordsAreChainWords : Obligations.DigestWordsAreChainWords :=
  ⟨fun h => ⟨packBytes_digestBytes (v := .sha224) (n := 7) rfl h,
      packBytes_digestBytes (v := .sha256) (n := 8) rfl h⟩,
    fun h => ⟨(·.extractLsb' 32 32), (·.extractLsb' 0 32), fun _ => ⟨rfl, rfl⟩,
      packBytes_digestBytes (v := .sha384) (n := 12) rfl h, packBytes_digestBytes (v := .sha512) (n := 16) rfl h,
      packBytes_digestBytes (v := .sha512_224) (n := 7) rfl h,
      packBytes_digestBytes (v := .sha512_256) (n := 8) rfl h⟩⟩

end Sys2Proof.Machine
end
